-- ==== Sys2Proof/Word.lean ====
section
/-! DEFINITION. Words, bytes and the burst descriptor (spec 00_scope.md R6, R8; 10_state.md R16). -/

namespace Sys2Proof

/-- A host-port register and a command word: `WORD_W = 32` bits, bit 0 least significant (R6, R8). -/
abbrev Word := BitVec 32

/-- One byte of a register word, as a platform may present it (R46). -/
abbrev Byte := BitVec 8

/-- A burst descriptor, R16: `PULSES_W = 8` bits of pulse count and `FREQ_W = 16` bits of frequency
in Hz. No value of either field is excluded: `pulses = 0` is storable. -/
structure Burst where
  pulses : BitVec 8
  freq   : BitVec 16
  deriving DecidableEq, Repr, Inhabited

/-- The descriptor every buffer entry holds after reset (R17, R21, R38). -/
def Burst.zero : Burst := { pulses := 0, freq := 0 }

end Sys2Proof
end

