-- ==== Sys2Proof/Config.lean ====
section
/-! DEFINITION. What is fixed for the hardware (spec 00_scope.md R6), what the platform fixes (R7), and the one
free value of the model. -/

namespace Sys2Proof

/-- `MAX`, the capacity of the burst buffer and of the staging buffer (R6). -/
abbrev Config.max : Nat := 10

/-- `F_MIN` in Hz, the lower clamp bound (R6). -/
def Config.fMin : Nat := 100

/-- `F_MAX` in Hz, the upper clamp bound (R6). -/
def Config.fMax : Nat := 20000

/-- `TICK_HZ`, the count rate the reload formula assumes (R6). -/
def Config.tickHz : Nat := 1000000

/-- The window's position, in units of its 16 bytes. OPEN (R7, D2, M3): nothing gives it a value. Log 7. -/
opaque Config.windowIndex : Nat

/-- `BASE`, the byte address of the register window, a multiple of 16 (R7, R43). -/
def Config.base : Nat := 16 * Config.windowIndex

/-- `OWN_SRC`, the interrupt source the bridge forwards. OPEN (R7, D28, M4): nothing gives it a value. Log 7. -/
opaque Config.ownSrc : Nat

/-- FREE VALUE, DESIGN CHOICE (log 8), safe: what an entry of `BUF` at an index of `MAX` or more would read as.
`BUF` has no such entry (R17), and no run from reset reads one (R39); the spec gives no value. -/
opaque Config.freeBurst : Nat → Burst

end Sys2Proof
end

