-- ==== Sys2Proof/Syntax.lean ====
section
/-! DEFINITION. The command set: one constructor for each row of spec/opcode_table.json (spec 30_encoding.md R56). -/

namespace Sys2Proof

/-- The six commands with their operand fields, each as wide as its field of the word (R57 to R59). Every operand is
unsigned and taken as it is (R61). -/
inductive Instr where
  /-- `WRSTG idx, pulses, freq` (format W, R57, R68). -/
  | wrstg (idx : BitVec 4) (pulses : BitVec 8) (freq : BitVec 16)
  /-- `LOAD n` (format N, R58, R69). -/
  | load (n : BitVec 8)
  /-- `START` (format Z, R59, R73). -/
  | start
  /-- `STOP` (format Z, R59, R74). -/
  | stop
  /-- `QRUN` (format Z, R59, R75). -/
  | qrun
  /-- `QCAP` (format Z, R59, R76). -/
  | qcap
  deriving DecidableEq, Repr

end Sys2Proof
end

