-- ==== Sys2Proof/WellFormed.lean ====
section
/-! DEFINITION. Which commands have a legal word (spec 30_encoding.md R62). -/

namespace Sys2Proof

/-- A staging index is legal below `MAX` (R57, R62(b)). -/
def stagingIndexOk (idx : BitVec 4) : Bool := decide (idx.toNat < Config.max)

/-- A command is well formed when its encoding is a legal word. Only `WRSTG` carries a check (R62(b)): every count
of `LOAD` is a legal word, the refusal of a count above `MAX` being an effect (R58, R69). -/
def Instr.wf : Instr → Bool
  | .wrstg idx _ _ => stagingIndexOk idx
  | .load _ => true
  | .start => true
  | .stop => true
  | .qrun => true
  | .qcap => true

end Sys2Proof
end

