-- ==== Sys2Proof/Decode.lean ====
section
/-! DEFINITION. Decoding of command words, total and rejecting by name, and after it the encoder
(spec 30_encoding.md R55 to R65). -/

namespace Sys2Proof

/-- Why a word is illegal: the four cases of R62. -/
inductive DecodeError where
  /-- R62(a): the opcode is 0x0 or 0x7 .. 0xF. -/
  | reservedOpcode
  /-- R62(b): `WRSTG` with an index of `MAX` or more. -/
  | stagingIndex
  /-- R62(c): `LOAD` with a nonzero bit among 27:8. -/
  | countReserved
  /-- R62(d): `START`, `STOP`, `QRUN` or `QCAP` with a nonzero bit among 27:0. -/
  | operandReserved
  deriving DecidableEq, Repr

/-- The field of `len` bits of `w` whose lowest bit is bit `lo` (R8). -/
def field (w : Word) (lo len : Nat) : BitVec len := w.extractLsb' lo len

/-- The opcode field `w[31:28]` (R56). -/
def opcodeOf (w : Word) : BitVec 4 := field w 28 4

/-- Format W (R57): every bit is a field; the index must be legal. -/
def decodeW (w : Word) : Except DecodeError Instr :=
  if stagingIndexOk (field w 24 4) then
    .ok (.wrstg (field w 24 4) (field w 16 8) (field w 0 16))
  else .error .stagingIndex

/-- Format N (R58): bits 27:8 must be 0. -/
def decodeN (w : Word) : Except DecodeError Instr :=
  if field w 8 20 = 0 then .ok (.load (field w 0 8)) else .error .countReserved

/-- Format Z (R59): bits 27:0 must be 0. -/
def decodeZ (i : Instr) (w : Word) : Except DecodeError Instr :=
  if field w 0 28 = 0 then .ok i else .error .operandReserved

/-- Decoding of one command word, R60: the opcode alone gives the format (R55, R65). -/
def decode (w : Word) : Except DecodeError Instr :=
  match (opcodeOf w).toNat with
  | 0x1 => decodeW w
  | 0x2 => decodeN w
  | 0x3 => decodeZ .start w
  | 0x4 => decodeZ .stop w
  | 0x5 => decodeZ .qrun w
  | 0x6 => decodeZ .qcap w
  | _ => .error .reservedOpcode

/-- Byte `k` of a register word, bits `8k+7 : 8k` (R46, little-endian). -/
def byteOf (w : Word) (k : Nat) : Byte := w.extractLsb' (8 * k) 8

/-- The word presented by four bytes, the first at the lowest address (R46). -/
def wordOfBytes (b0 b1 b2 b3 : Byte) : Word := b3 ++ b2 ++ b1 ++ b0

/-- The bytes of a word in address order (R46). -/
def bytesOfWord (w : Word) : List Byte := [byteOf w 0, byteOf w 1, byteOf w 2, byteOf w 3]

/-- Decoding of the bytes of one command, with the bytes that follow it. There is one length, four bytes (R55), so
fewer bytes hold no command (`none`). -/
def decodeBytes : List Byte → Option (Except DecodeError Instr × List Byte)
  | b0 :: b1 :: b2 :: b3 :: rest => some (decode (wordOfBytes b0 b1 b2 b3), rest)
  | _ => none

/-- The command word of a number of `nbits` bits as spec/opcode_table.json numbers them: bit 0 is bit 0 of the
word (spec 98_reader.md), and every bit from `nbits` up is 0. Log 12. -/
def tableWord (nbits w : Nat) : Word := BitVec.ofNat 32 (w % 2 ^ nbits)

/-- What the decoder reads from a table row's number, laid out as the bytes of R46. -/
def decodeTableWord (nbits w : Nat) : Option Instr :=
  match decodeBytes (bytesOfWord (tableWord nbits w)) with
  | some (.ok i, _) => some i
  | some (.error _, _) => none
  | none => none

/-- The opcode of a command (R56). -/
def Instr.opcode : Instr → BitVec 4
  | .wrstg _ _ _ => 0x1
  | .load _ => 0x2
  | .start => 0x3
  | .stop => 0x4
  | .qrun => 0x5
  | .qcap => 0x6

/-- The 28 bits below the opcode (R57 to R59), written from the format tables' rows, highest field first. -/
def Instr.operandBits : Instr → BitVec 28
  | .wrstg idx pulses freq => idx ++ pulses ++ freq
  | .load n => (0 : BitVec 20) ++ n
  | .start => 0
  | .stop => 0
  | .qrun => 0
  | .qcap => 0

/-- The word of a command (R56 to R59, R66). -/
def encode (i : Instr) : Word := i.opcode ++ i.operandBits

end Sys2Proof
end

