-- ==== Sys2Proof/Machine/State.lean ====
section
/-! DEFINITION. Everything the spec gives the block as state (spec 10_state.md), the environment's data that decides
what happens next, and the state after reset (R38). -/

namespace Sys2Proof.Machine

/-- The reasons of R115. The state's `fault` field records them, as `raise Fault(reason)` says; no step of this model
ends in the host's `fault` outcome, because the run goes on with `FAULT` set (R24, log 5). -/
inductive Fault where
  /-- Raised by a host access to the window that is not an aligned 32-bit word (R45, M1): its byte address and its
  number of bytes. Safe: the model gives such an access no effect on the block and no value (D3, D32). -/
  | busAccess (addr n : Nat)
  deriving DecidableEq, Repr

/-- Why a command would have no meaning. -/
inductive Refusal where
  /-- Raised by an arm of `exec` without a meaning, by the mnemonic of its row. No arm of this model raises it. Safe. -/
  | notModelled (mnemonic : String)
  deriving DecidableEq, Repr

/-- One write of the block to the timer port (R32). -/
inductive TimerEvent where
  /-- One `TimerProgram`: reload and repetition written, update forced, completion source armed. -/
  | prog (arr : BitVec 16) (rcr : BitVec 8)
  /-- One `TimerDisarm`. -/
  | disarm
  deriving DecidableEq, Repr

/-- An access of the host to the register window (R43, R45): `off = addr - BASE`, `n` bytes. An access outside the
window is not the block's and is no access here (R44, M2, log 6). -/
inductive HostAccess where
  /-- `MemRead(BASE + off, n)`. -/
  | read (off : Fin 16) (n : Nat)
  /-- `MemWrite(BASE + off, n, v)`. The value of a write that is not of four bytes is never used (R45), so `v` is
  one word (log 6). -/
  | write (off : Fin 16) (n : Nat) (v : Word)
  deriving DecidableEq, Repr

/-- Whose step comes next (R12, R50). -/
inductive Turn where
  /-- The host performs its next access. -/
  | host
  /-- The timer raises its completion request, if `TIE = 1` (R108). -/
  | timer
  /-- An interrupt entry for source `src` reaches the bridge (R110, R111). -/
  | irq (src : Nat)
  /-- The simulated completion, a test hook and no hardware (R96, D29). -/
  | simulated
  /-- System reset (R121). -/
  | reset
  deriving DecidableEq, Repr

/-- A value a host read returned, with the offset it was read from (R13). -/
structure ReadReply where
  off   : Fin 16
  value : Word
  deriving DecidableEq, Repr

/-- The state of the block, R16 to R33, with the environment's data. -/
structure State where
  /-- `BUF`, the burst buffer (R17). -/
  buf     : Vector Burst Config.max
  /-- `SIZE`, the count of valid entries of `BUF` (R18). -/
  size    : BitVec 4
  /-- `CURSOR`, the index of the burst programmed into the timer (R19). -/
  cursor  : BitVec 4
  /-- `RUNNING`: Idle is `false`, Running is `true` (R20). -/
  running : Bool
  /-- `STG`, the staging buffer (R21). -/
  stg     : Vector Burst Config.max
  /-- `RESULT`, the answer of the last command that returns one (R22). -/
  result  : Word
  /-- `ILL`, whether the last command word was illegal (R23). -/
  ill     : Bool
  /-- `FAULT`, a set of reasons: a list without repeats, in the order of first recording (R24, log 10). -/
  fault   : List Fault
  /-- `TARR`, the reload value last written to the timer (R26). -/
  tarr    : BitVec 16
  /-- `TRCR`, the repetition count last written to the timer (R27). -/
  trcr    : BitVec 8
  /-- `TIE`, the enable of the completion source (R28). -/
  tie     : Bool
  /-- `TPEND`, the pending completion request (R31). -/
  tpend   : Bool
  /-- `TLOG`, the block's writes to the timer port, oldest first (R33). -/
  tlog    : List TimerEvent
  /-- The host's pending accesses in program order (R50, log 3). The model's own. -/
  host    : List HostAccess
  /-- The turns still to come; when none is left, the host has the turn (log 1). The model's own. -/
  turns   : List Turn
  /-- The values host reads returned, oldest first (R13, log 4). The model's own. -/
  reads   : List ReadReply
  deriving DecidableEq, Repr

/-- The machine right after reset, R38 and R122, at the start of a run: every field at the spec's value, `FAULT`
empty, and nothing scheduled, pending or read yet (log 1, log 3, log 4). -/
def State.reset : State where
  buf     := Vector.replicate Config.max Burst.zero
  size    := 0
  cursor  := 0
  running := false
  stg     := Vector.replicate Config.max Burst.zero
  result  := 0
  ill     := false
  fault   := []
  tarr    := 0
  trcr    := 0
  tie     := false
  tpend   := false
  tlog    := []
  host    := []
  turns   := []
  reads   := []

end Sys2Proof.Machine
end

