-- ==== Sys2Proof/Machine/Flags.lean ====
section
/-! DEFINITION. The flag `ILL`, the answer `RESULT`, and the words in which the host reads the flags
(spec 10_state.md R22, R23, R34 to R37). -/

namespace Sys2Proof.Machine

/-- `ILL <- b` (R23, R60). -/
def setIll (b : Bool) (s : State) : State := { s with ill := b }

/-- `RESULT <- v` (R22). -/
def setResult (v : Word) (s : State) : State := { s with result := v }

/-- A flag as a word, `zext_32` (R8, R75). -/
def flagWord (b : Bool) : Word := (BitVec.ofBool b).zeroExtend 32

/-- The STATUS word (R34, R47). -/
def statusWord (s : State) : Word :=
  s.cursor.zeroExtend 32 <<< 8 ||| s.size.zeroExtend 32 <<< 4 ||| flagWord s.ill <<< 1 ||| flagWord s.running

/-- The TIMER word (R36, R47). -/
def timerWord (s : State) : Word :=
  flagWord s.tpend <<< 25 ||| flagWord s.tie <<< 24 ||| s.trcr.zeroExtend 32 <<< 16 ||| s.tarr.zeroExtend 32

end Sys2Proof.Machine
end

