-- ==== Sys2Proof/Machine/Operands.lean ====
section
/-! DEFINITION. Operand assembly (spec 30_encoding.md R61): every operand is unsigned and taken as it is. -/

namespace Sys2Proof.Machine

/-- The burst of `WRSTG`'s operands, stored unchanged: no range check and no clamp (R61, R68). -/
def burstOperand (pulses : BitVec 8) (freq : BitVec 16) : Burst := { pulses := pulses, freq := freq }

/-- `LOAD`'s length, 0 .. 255 (R58, R61). -/
def countOperand (n : BitVec 8) : Nat := n.toNat

/-- A staging index as a number (R57, R61). -/
def indexOperand (idx : BitVec 4) : Nat := idx.toNat

end Sys2Proof.Machine
end

