-- ==== Sys2Proof/Machine/Timer.lean ====
section
/-! DEFINITION. The timer register programmer: its arithmetic and its writes of the timer port
(spec 42_timer_programmer.md). -/

namespace Sys2Proof.Machine

/-- The clamped frequency in Hz, R80. -/
def clampF (f : BitVec 16) : Nat :=
  if f.toNat < Config.fMin then Config.fMin
  else if Config.fMax < f.toNat then Config.fMax
  else f.toNat

/-- The reload value before it is stored, R81: exact, the division truncates (R83, D19). -/
def reloadNat (f : BitVec 16) : Nat := Config.tickHz / (2 * clampF f) - 1

/-- The reload value as the `ARR_W = 16` bits written to the timer, R81; it fits (R82). -/
def reload (f : BitVec 16) : BitVec 16 := BitVec.ofNat 16 (reloadNat f)

/-- The repetition count, R84: `(p - 1) mod 256`, so a count of 0 gives 255 (R85, D20). -/
def repeatCount (p : BitVec 8) : BitVec 8 := p - 1

/-- The timer event that programming a burst leaves (R78, R93). -/
def progOf (b : Burst) : TimerEvent := .prog (reload b.freq) (repeatCount b.pulses)

/-- `TimerProgram(b)`, R93: reload, repetition, forced update, arm (R88), one entry of `TLOG`. `TPEND` is not
written (R90). -/
def timerProgram (b : Burst) (s : State) : State :=
  { s with
    tarr := reload b.freq
    trcr := repeatCount b.pulses
    tie  := true
    tlog := s.tlog ++ [progOf b] }

/-- `TimerDisarm()`, R94, unconditional: mask, drop a pending completion, one entry of `TLOG`. -/
def timerDisarm (s : State) : State :=
  { s with
    tie   := false
    tpend := false
    tlog  := s.tlog ++ [.disarm] }

/-- How long the burst in the timer lasts, in ticks of `TICK_HZ`, that is microseconds (R87, R133). Informative: no
step reads it. It takes a period of `reload + 1` ticks from general knowledge (G2, log 17). -/
def burstTicks (arr : BitVec 16) (rcr : BitVec 8) : Nat := (rcr.toNat + 1) * (arr.toNat + 1)

end Sys2Proof.Machine
end

