-- ==== Sys2Proof/Machine/Ops.lean ====
section
/-! DEFINITION. The shared operations on the buffers, the fault mark, the playback state and the completion
interrupt. -/

namespace Sys2Proof.Machine

/-- `STG[idx] <- b` (R68). -/
def writeStaging (idx : Nat) (b : Burst) (s : State) : State :=
  { s with stg := s.stg.setIfInBounds idx b }

/-- The writes of a successful `LOAD n` but `RESULT` (R69): the first `n` staged bursts become `BUF[0..n-1]`, the
entries above keep their values (D11, log 16), `SIZE <- n`, `CURSOR <- 0`. -/
def commitStaging (n : Nat) (s : State) : State :=
  { s with
    buf    := Vector.ofFn fun i => if i.val < n then s.stg[i] else s.buf[i]
    size   := BitVec.ofNat 4 n
    cursor := 0 }

/-- `BUF[i]` (R17). There is no entry at `MAX` or above; reading one is a free value (log 8). -/
def burstAt (s : State) (i : Nat) : Burst :=
  if h : i < Config.max then s.buf[i] else Config.freeBurst i

/-- `raise Fault(r)`, R115: add `r` to the set `FAULT`, change nothing else. -/
def raiseFault (r : Fault) (s : State) : State :=
  if r ∈ s.fault then s else { s with fault := s.fault ++ [r] }

/-- The whole effect of an illegal word, R63: `ILL <- 1`. -/
def illegalWord (s : State) : State := setIll true s

/-- `LOAD`'s body, R69: refused while running, refused above `MAX`, else committed. -/
def loadBody (n : Nat) (s : State) : State :=
  if s.running then setResult 0 s
  else if Config.max < n then setResult 0 s
  else setResult 1 (commitStaging n s)

/-- `START`'s body, R73. -/
def startBody (s : State) : State :=
  if s.size = 0 ∨ s.running = true then s
  else timerProgram (burstAt s 0) { s with cursor := 0, running := true }

/-- `STOP`'s body, R74, which the end of the sequence performs as well (R99). -/
def stopBody (s : State) : State := timerDisarm { s with running := false }

/-- `QRUN`'s body, R75. -/
def queryRunning (s : State) : State := setResult (flagWord s.running) s

/-- `QCAP`'s body, R76. -/
def queryCapacity (s : State) : State := setResult (BitVec.ofNat 32 Config.max) s

/-- `Complete()`, R100: nothing while Idle (R98), else advance the cursor by one (R97) and either end the sequence
(R99) or program the next burst. The sum is exact (R8); it fits `CURSOR` wherever `CURSOR < SIZE` (R39, log 9). -/
def complete (s : State) : State :=
  if s.running = false then s
  else
    let next := s.cursor.toNat + 1
    let s' := { s with cursor := BitVec.ofNat 4 next }
    if s.size.toNat ≤ next then stopBody s' else timerProgram (burstAt s' next) s'

/-- The bridge step, R110, the one interrupt entry of the block: acknowledge, then `Complete()`. It saves nothing and
returns nowhere (R113, R114). -/
def bridgeStep (s : State) : State := complete { s with tpend := false }

end Sys2Proof.Machine
end

