-- ==== Sys2Proof/Machine/BufferLoad.lean ====
section
/-! DEFINITION. The meanings of WRSTG and LOAD (spec 40_buffer_load.md). -/

namespace Sys2Proof.Machine

/-- `WRSTG idx, pulses, freq`, R68, with `Exec`'s `ILL <- 0` (R60, log 13). An index of `MAX` or more makes the word
illegal: `ILL <- 1` and no entry is written (R63, R68). -/
def execWrstg (idx : BitVec 4) (pulses : BitVec 8) (freq : BitVec 16) (s : State) : Host.Outcome State Fault Refusal :=
  if stagingIndexOk idx then .next (writeStaging (indexOperand idx) (burstOperand pulses freq) (setIll false s))
  else .next (illegalWord s)

/-- `LOAD n`, R69, with `Exec`'s `ILL <- 0` (R60). -/
def execLoad (n : BitVec 8) (s : State) : Host.Outcome State Fault Refusal :=
  .next (loadBody (countOperand n) (setIll false s))

end Sys2Proof.Machine
end

