-- ==== Sys2Proof/Machine/PlaybackControl.lean ====
section
/-! DEFINITION. The meanings of START, STOP, QRUN and QCAP (spec 41_playback_control.md). Each begins with `Exec`'s
`ILL <- 0` (R60, log 13). -/

namespace Sys2Proof.Machine

/-- `START`, R73. -/
def execStart (s : State) : Host.Outcome State Fault Refusal := .next (startBody (setIll false s))

/-- `STOP`, R74. -/
def execStop (s : State) : Host.Outcome State Fault Refusal := .next (stopBody (setIll false s))

/-- `QRUN`, R75. -/
def execQrun (s : State) : Host.Outcome State Fault Refusal := .next (queryRunning (setIll false s))

/-- `QCAP`, R76. -/
def execQcap (s : State) : Host.Outcome State Fault Refusal := .next (queryCapacity (setIll false s))

end Sys2Proof.Machine
end

