-- ==== Sys2Proof/Machine/Dispatch.lean ====
section
/-! DEFINITION. One arm per command (spec 30_encoding.md R60). -/

namespace Sys2Proof.Machine

def exec (i : Instr) (s : State) : Host.Outcome State Fault Refusal :=
  match i with
  | .wrstg idx pulses freq => Sys2Proof.Machine.execWrstg idx pulses freq s
  | .load n => Sys2Proof.Machine.execLoad n s
  | .start => Sys2Proof.Machine.execStart s
  | .stop => Sys2Proof.Machine.execStop s
  | .qrun => Sys2Proof.Machine.execQrun s
  | .qcap => Sys2Proof.Machine.execQcap s

end Sys2Proof.Machine
end

