-- ==== Sys2Proof/Machine/HostPort.lean ====
section
/-! DEFINITION. The host port: the register window and the host's turn (spec 20_memory.md). -/

namespace Sys2Proof.Machine

/-- The four registers of the window (R44). -/
inductive PortReg where
  | cmd
  | status
  | result
  | timer
  deriving DecidableEq, Repr

/-- The register an access of `n` bytes at window offset `off` reaches, if it is an aligned 32-bit word (R44, R45). -/
def portReg (off : Fin 16) (n : Nat) : Option PortReg :=
  if n = 4 then
    match off.val with
    | 0x0 => some .cmd
    | 0x4 => some .status
    | 0x8 => some .result
    | 0xC => some .timer
    | _ => none
  else none

/-- The value of a register, R47: CMD reads 0 (R37). -/
def readReg (r : PortReg) (s : State) : Word :=
  match r with
  | .cmd => 0
  | .status => statusWord s
  | .result => s.result
  | .timer => timerWord s

/-- The register that holds the byte at a window offset: the four words cover the window (R44). -/
def regHolding (off : Fin 16) : PortReg :=
  match off.val / 4 with
  | 0 => .cmd
  | 1 => .status
  | 2 => .result
  | _ => .timer

/-- The byte at a window offset, as a platform may present the register word that holds it (R46). -/
def windowByte (s : State) (off : Fin 16) : Byte := byteOf (readReg (regHolding off) s) (off.val % 4)

/-- `Exec(w)`, R60: decode and perform one command word in one step. -/
def execWord (w : Word) (s : State) : Host.Outcome State Fault Refusal :=
  match decode w with
  | .ok i => exec i s
  | .error _ => .next (illegalWord s)

/-- A legal write of a register, R47: CMD performs the word, the others ignore it. -/
def writeReg (r : PortReg) (v : Word) (s : State) : Host.Outcome State Fault Refusal :=
  match r with
  | .cmd => execWord v s
  | .status => .next s
  | .result => .next s
  | .timer => .next s

/-- The byte address of a window offset (R43). -/
def windowAddr (off : Fin 16) : Nat := Config.base + off.val

/-- The window offset of a byte address: none outside `BASE .. BASE + 15`, where an access is not the block's (R44,
M2, log 6). -/
def windowOffset (addr : Nat) : Option (Fin 16) :=
  if h : Config.base ≤ addr ∧ addr - Config.base < 16 then some ⟨addr - Config.base, h.2⟩ else none

/-- The fault of an access that is not an aligned 32-bit word (R45). -/
def accessFault (off : Fin 16) (n : Nat) : Fault := .busAccess (windowAddr off) n

/-- `MemRead(BASE + off, n)` as the host's next access, R45 and R47; `rest` are the accesses after it. A legal read
returns its value. Any other read records its fault and returns no value: it stays the host's next access, so the
host never gets past it (M1, log 5). -/
def hostRead (off : Fin 16) (n : Nat) (rest : List HostAccess) (s : State) : Host.Outcome State Fault Refusal :=
  match portReg off n with
  | some r => .next { s with host := rest, reads := s.reads ++ [{ off := off, value := readReg r s }] }
  | none => .next (raiseFault (accessFault off n) s)

/-- `MemWrite(BASE + off, n, v)` as the host's next access, R45 and R47; `rest` are the accesses after it. A write
that is not of an aligned word records its fault and has no other effect (log 5). -/
def hostWrite (off : Fin 16) (n : Nat) (v : Word) (rest : List HostAccess) (s : State) :
    Host.Outcome State Fault Refusal :=
  match portReg off n with
  | some r => writeReg r v { s with host := rest }
  | none => .next (raiseFault (accessFault off n) { s with host := rest })

/-- The host's turn: its next access in program order (R50); with none pending it does nothing (log 3). -/
def hostTurn (s : State) : Host.Outcome State Fault Refusal :=
  match s.host with
  | [] => .next s
  | .read off n :: rest => hostRead off n rest s
  | .write off n v :: rest => hostWrite off n v rest s

end Sys2Proof.Machine
end

