-- ==== Sys2Proof/Machine/Agents.lean ====
section
/-! DEFINITION. The steps of the other agents: timer, bridge, test hook and system reset
(spec 60_exceptions.md, 43_completion.md R96, 70_reset_and_hazards.md R121). -/

namespace Sys2Proof.Machine

/-- The timer agent's turn, R108: it raises the request while `TIE = 1`; with `TIE = 0` it has no step, so the turn
changes nothing (log 2). A request raised while one is pending is merged into it (R109). -/
def timerTurn (s : State) : State := if s.tie then { s with tpend := true } else s

/-- An interrupt entry for `src` at the bridge: the bridge step for the owned source with a request pending (R110);
a foreign or spurious entry changes nothing (R111, log 2). -/
def irqEntry (src : Nat) (s : State) : State :=
  if src = Config.ownSrc ∧ s.tpend = true then bridgeStep s else s

/-- A simulated completion, R96: `TPEND` forced to 1, then the bridge step, in one step. A test hook (D29, log 15). -/
def simulatedCompletion (s : State) : State := bridgeStep { s with tpend := true }

/-- System reset, R121: every field of the block to its reset value but `FAULT`. What the host still has to do, the
turns to come and the values already read are not the block's and stay (log 18). -/
def systemReset (s : State) : State :=
  { State.reset with fault := s.fault, host := s.host, turns := s.turns, reads := s.reads }

/-- One turn of the agent named (R12, R50). -/
def takeTurn (t : Turn) (s : State) : Host.Outcome State Fault Refusal :=
  match t with
  | .host => hostTurn s
  | .timer => .next (timerTurn s)
  | .irq src => .next (irqEntry src s)
  | .simulated => .next (simulatedCompletion s)
  | .reset => .next (systemReset s)

end Sys2Proof.Machine
end

