-- ==== Sys2Proof/Machine/Step.lean ====
section
/-! DEFINITION. One atomic step of the machine (spec 20_memory.md R50), and how a command word reaches it. -/

namespace Sys2Proof.Machine

/-- One step: the next turn of `turns`, and the host's turn when none is left (log 1). -/
def step (s : State) : Host.Outcome State Fault Refusal :=
  match s.turns with
  | [] => takeTurn .host s
  | t :: ts => takeTurn t { s with turns := ts }

/-- The command word of `nbits` bits written to CMD (R55) as the host's next access, the host having the next turn.
The block fetches nothing (R15): the host's write is where a command comes from (log 3). -/
def State.withFetchWord (s : State) (nbits w : Nat) : State :=
  { s with
    host  := .write 0 4 (tableWord nbits w) :: s.host
    turns := .host :: s.turns }

end Sys2Proof.Machine
end

