-- ==== Sys2Proof/Machine/Assembler.lean ====
section
/-! DEFINITION. The spec's program syntax (spec 30_encoding.md R66, R67): lines, pseudo-instructions, and how an
assembled program is handed to the machine. -/

namespace Sys2Proof.Machine

/-- One line of a program, with operands as the numbers written (R66, R67). -/
inductive AsmLine where
  | wrstg (idx pulses freq : Nat)
  | load (n : Nat)
  | start
  | stop
  | qrun
  | qcap
  /-- `.word v`: a raw word written to CMD. -/
  | word (v : Nat)
  /-- `RD STATUS`, `RD RESULT` and `RD TIMER`. -/
  | rdStatus
  | rdResult
  | rdTimer
  /-- `PLAY (p0, f0), ...` (R67). -/
  | play (bursts : List (Nat × Nat))
  /-- `STOPQ` (R67). -/
  | stopq
  /-- `; ~TIMER`, `; ~IRQ` or `; ~SIM`: a step of the environment, not encoded. -/
  | env (t : Turn)
  /-- An empty line, or a line with a comment only. -/
  | blank
  deriving DecidableEq, Repr

/-- What a program gives the machine, in order: an access of the host, or a turn of another agent. -/
inductive AsmOp where
  | access (a : HostAccess)
  | turn (t : Turn)
  deriving DecidableEq, Repr

/-- The write of a word to CMD (R55). -/
def cmdWrite (w : Word) : AsmOp := .access (.write 0x0 4 w)

/-- The write of a command to CMD. -/
def cmdOf (i : Instr) : AsmOp := cmdWrite (encode i)

/-- `WRSTG` with operands that fit their fields; an index of 10 .. 15 is accepted, and encodes an illegal word (R66). -/
def asmWrstg (idx pulses freq : Nat) : Option AsmOp :=
  if idx ≤ 15 ∧ pulses ≤ 255 ∧ freq ≤ 65535 then
    some (cmdOf (.wrstg (BitVec.ofNat 4 idx) (BitVec.ofNat 8 pulses) (BitVec.ofNat 16 freq)))
  else none

/-- `LOAD` with an operand that fits its field (R66). -/
def asmLoad (n : Nat) : Option AsmOp := if n ≤ 255 then some (cmdOf (.load (BitVec.ofNat 8 n))) else none

/-- `.word` with a value of 32 bits (R66). -/
def asmWord (v : Nat) : Option AsmOp := if v < 2 ^ 32 then some (cmdWrite (BitVec.ofNat 32 v)) else none

/-- The `WRSTG` commands of a `PLAY`, from staging index `idx` on (R67). -/
def playWrites (idx : Nat) : List (Nat × Nat) → Option (List AsmOp)
  | [] => some []
  | (p, f) :: rest =>
    match asmWrstg idx p f, playWrites (idx + 1) rest with
    | some op, some ops => some (op :: ops)
    | _, _ => none

/-- `PLAY`, R67: at most `MAX` bursts, staged from index 0, loaded and started; more are refused. -/
def asmPlay (bursts : List (Nat × Nat)) : Option (List AsmOp) :=
  if bursts.length ≤ Config.max then
    match playWrites 0 bursts, asmLoad bursts.length with
    | some ops, some ld => some (ops ++ [ld, cmdOf .start])
    | _, _ => none
  else none

/-- One line assembled: its operations, or `none` where the assembler refuses it (R66, R67). -/
def assembleLine : AsmLine → Option (List AsmOp)
  | .wrstg idx pulses freq => (asmWrstg idx pulses freq).map ([·])
  | .load n => (asmLoad n).map ([·])
  | .start => some [cmdOf .start]
  | .stop => some [cmdOf .stop]
  | .qrun => some [cmdOf .qrun]
  | .qcap => some [cmdOf .qcap]
  | .word v => (asmWord v).map ([·])
  | .rdStatus => some [.access (.read 0x4 4)]
  | .rdResult => some [.access (.read 0x8 4)]
  | .rdTimer => some [.access (.read 0xC 4)]
  | .play bursts => asmPlay bursts
  | .stopq => some [cmdOf .stop, cmdOf .qrun]
  | .env t => some [.turn t]
  | .blank => some []

/-- A program assembled, line after line; refused if a line is. -/
def assemble : List AsmLine → Option (List AsmOp)
  | [] => some []
  | l :: ls =>
    match assembleLine l, assemble ls with
    | some ops, some more => some (ops ++ more)
    | _, _ => none

/-- The host accesses of a program, in program order. -/
def programAccesses : List AsmOp → List HostAccess
  | [] => []
  | .access a :: ops => a :: programAccesses ops
  | .turn _ :: ops => programAccesses ops

/-- The interleaving a program's lines fix: a host turn for each access, the agent's turn for each environment line. -/
def programTurns : List AsmOp → List Turn
  | [] => []
  | .access _ :: ops => .host :: programTurns ops
  | .turn t :: ops => t :: programTurns ops

/-- A program handed to the machine: what the host does next, and in which order with the other agents (log 3). -/
def withProgram (ops : List AsmOp) (s : State) : State :=
  { s with host := programAccesses ops, turns := programTurns ops }

/-! The text of a line (R66, log 19). -/

/-- The tokens of a line. -/
inductive Token where
  | word (cs : List Char)
  | comma
  | lpar
  | rpar
  deriving DecidableEq, Repr

/-- The token of a finished run of characters, if it holds any (they come last first). -/
def flushWord (acc : List Char) (rest : List Token) : List Token :=
  match acc with
  | [] => rest
  | c :: cs => .word (c :: cs).reverse :: rest

/-- Tokens of the characters before a comment; `acc` is the run read so far, last first. -/
def tokens (acc : List Char) : List Char → List Token
  | [] => flushWord acc []
  | c :: cs =>
    if c = ',' then flushWord acc (.comma :: tokens [] cs)
    else if c = '(' then flushWord acc (.lpar :: tokens [] cs)
    else if c = ')' then flushWord acc (.rpar :: tokens [] cs)
    else if c = ' ' ∨ c = '\t' ∨ c = '\r' then flushWord acc (tokens [] cs)
    else tokens (c :: acc) cs

/-- The value of a digit in base 10 or 16. -/
def digitValue (c : Char) : Option Nat :=
  if '0' ≤ c ∧ c ≤ '9' then some (c.toNat - '0'.toNat)
  else if 'a' ≤ c ∧ c ≤ 'f' then some (c.toNat - 'a'.toNat + 10)
  else if 'A' ≤ c ∧ c ≤ 'F' then some (c.toNat - 'A'.toNat + 10)
  else none

/-- The digits of a number in the given base, `acc` the value read so far. -/
def digits (base acc : Nat) : List Char → Option Nat
  | [] => some acc
  | c :: cs =>
    match digitValue c with
    | some d => if d < base then digits base (base * acc + d) cs else none
    | none => none

/-- A number: decimal, or hexadecimal after `0x` (R66). -/
def number : List Char → Option Nat
  | [] => none
  | '0' :: 'x' :: c :: cs => digits 16 0 (c :: cs)
  | c :: cs => digits 10 0 (c :: cs)

/-- The bursts of a `PLAY`, `(p, f)` separated by commas. -/
def burstTokens : List Token → Option (List (Nat × Nat))
  | [.lpar, .word p, .comma, .word f, .rpar] =>
    match number p, number f with
    | some p, some f => some [(p, f)]
    | _, _ => none
  | .lpar :: .word p :: .comma :: .word f :: .rpar :: .comma :: rest =>
    match number p, number f, burstTokens rest with
    | some p, some f, some more => some ((p, f) :: more)
    | _, _, _ => none
  | _ => none

/-- The line a mnemonic and its operand tokens write (R66, R67). -/
def lineOf (m : List Char) (rest : List Token) : Option AsmLine :=
  match rest with
  | [] =>
    if m = "START".toList then some .start
    else if m = "STOP".toList then some .stop
    else if m = "QRUN".toList then some .qrun
    else if m = "QCAP".toList then some .qcap
    else if m = "STOPQ".toList then some .stopq
    else if m = "PLAY".toList then some (.play [])
    else none
  | [.word a] =>
    if m = "RD".toList then
      if a = "STATUS".toList then some .rdStatus
      else if a = "RESULT".toList then some .rdResult
      else if a = "TIMER".toList then some .rdTimer
      else none
    else if m = "LOAD".toList then (number a).map .load
    else if m = ".word".toList then (number a).map .word
    else none
  | [.word a, .comma, .word b, .comma, .word c] =>
    if m = "WRSTG".toList then
      match number a, number b, number c with
      | some a, some b, some c => some (.wrstg a b c)
      | _, _, _ => none
    else none
  | bursts => if m = "PLAY".toList then (burstTokens bursts).map .play else none

/-- The environment step a comment names (R66), if it names one. -/
def envOf (comment : List Token) : AsmLine :=
  match comment with
  | [.word c] =>
    if c = "~TIMER".toList then .env .timer
    else if c = "~IRQ".toList then .env (.irq Config.ownSrc)
    else if c = "~SIM".toList then .env .simulated
    else .blank
  | _ => .blank

/-- The characters before the first `;`, and the comment after it if there is one. -/
def splitComment : List Char → List Char × Option (List Char)
  | [] => ([], none)
  | c :: cs =>
    if c = ';' then ([], some cs)
    else
      let (line, comment) := splitComment cs
      (c :: line, comment)

/-- One line of text. -/
def parseLine (cs : List Char) : Option AsmLine :=
  match tokens [] (splitComment cs).1 with
  | [] => some ((splitComment cs).2.elim .blank (fun c => envOf (tokens [] c)))
  | .word m :: rest => lineOf m rest
  | _ => none

/-- The lines of a text, `acc` the line read so far, last character first. -/
def splitLines (acc : List Char) : List Char → List (List Char)
  | [] => [acc.reverse]
  | c :: cs => if c = '\n' then acc.reverse :: splitLines [] cs else splitLines (c :: acc) cs

/-- The lines of a program text, refused if one is not of the syntax. -/
def parseLines : List (List Char) → Option (List AsmLine)
  | [] => some []
  | l :: ls =>
    match parseLine l, parseLines ls with
    | some a, some more => some (a :: more)
    | _, _ => none

/-- A program text assembled: one command per line (R66). -/
def assembleText (text : List Char) : Option (List AsmOp) :=
  match parseLines (splitLines [] text) with
  | some lines => assemble lines
  | none => none

end Sys2Proof.Machine
end

