-- ==== Sys2Proof/Safety.lean ====
section
/-! DEFINITION. The terms claims use: what kind of step comes next, the invariants of spec 10_state.md R39, R40 and R95,
the tables of R42 and R77, runs, the expected timer history of R101, and the named premises of R102 and R120. -/

namespace Sys2Proof.Machine

/-! Steps and runs. -/

/-- Whose turn is next (log 1). -/
def nextTurn (s : State) : Turn :=
  match s.turns with
  | [] => .host
  | t :: _ => t

/-- The state in which that turn is taken. -/
def afterTurn (s : State) : State := { s with turns := s.turns.tail }

/-- What a step does, in the columns of the table of R42. -/
inductive StepKind where
  /-- The host writes a legal command word to CMD. -/
  | command (i : Instr)
  /-- The host writes an illegal word to CMD. -/
  | illegalWord
  /-- Any other turn of the host: a read, an ignored write, an access that faults, or no access pending. -/
  | hostOther
  /-- The timer's turn. -/
  | timer
  /-- A bridge step, real or simulated: an accepted completion (R101, R110). -/
  | completion
  /-- A foreign or spurious interrupt entry (R111). -/
  | otherEntry
  /-- System reset. -/
  | reset
  deriving DecidableEq, Repr

/-- The kind of the host's turn with these accesses pending. -/
def hostKind : List HostAccess → StepKind
  | .write off n v :: _ =>
    match portReg off n with
    | some .cmd =>
      match decode v with
      | .ok i => .command i
      | .error _ => .illegalWord
    | _ => .hostOther
  | _ => .hostOther

/-- The kind of the next step. -/
def stepKind (s : State) : StepKind :=
  match nextTurn s with
  | .host => hostKind s.host
  | .timer => .timer
  | .irq src => if src = Config.ownSrc ∧ s.tpend = true then .completion else .otherEntry
  | .simulated => .completion
  | .reset => .reset

/-- A run of `n` steps, stopping at a fault or a refusal (as the host interface's run does). -/
def runSteps : Nat → State → Host.Outcome State Fault Refusal
  | 0, s => .next s
  | n + 1, s =>
    match step s with
    | .next t => runSteps n t
    | .fault r => .fault r
    | .refused r => .refused r

/-- How many of the next `n` steps are accepted completions (R101). -/
def completionsTaken : Nat → State → Nat
  | 0, _ => 0
  | n + 1, s =>
    match step s with
    | .next t => (if stepKind s = .completion then 1 else 0) + completionsTaken n t
    | .fault _ => 0
    | .refused _ => 0

/-! The invariants. -/

/-- The values the last `Prog` entry of a history wrote, if it has one (R95). -/
def lastProg : List TimerEvent → Option (BitVec 16 × BitVec 8)
  | [] => none
  | e :: es =>
    match lastProg es with
    | some p => some p
    | none =>
      match e with
      | .prog a r => some (a, r)
      | .disarm => none

/-- The invariant of every reachable state: R39, R40, R95, the range R82 gives to programmed reload values, and
`FAULT` being a set (R24, log 10). -/
structure Inv (s : State) : Prop where
  /-- R39(a). -/
  size_le : s.size.toNat ≤ Config.max
  /-- R39(b). -/
  cursor_le : s.cursor.toNat ≤ s.size.toNat
  /-- R39(c). -/
  running_cursor : s.running = true → 0 < s.size.toNat ∧ s.cursor.toNat < s.size.toNat
  /-- R40(a). -/
  tie_eq_running : s.tie = s.running
  /-- R40(b). -/
  idle_tpend : s.running = false → s.tpend = false
  /-- R40(c). -/
  log_end : s.tlog ≠ [] → (s.tlog.getLast? = some .disarm ↔ s.running = false)
  /-- R95: `TARR` and `TRCR` are those of the last `Prog` entry, or 0. -/
  log_values : (lastProg s.tlog).getD (0, 0) = (s.tarr, s.trcr)
  /-- R95: `TIE` is 1 exactly when the last entry is a `Prog`. -/
  log_tie : s.tie = true ↔ ∃ a r, s.tlog.getLast? = some (.prog a r)
  /-- R82: every reload value ever programmed is between 24 and 4999. -/
  log_range : ∀ a r, TimerEvent.prog a r ∈ s.tlog → 24 ≤ a.toNat ∧ a.toNat ≤ 4999
  /-- `FAULT` has no repeats. -/
  fault_nodup : s.fault.Nodup

/-! The transition table of R77. -/

/-- `RUNNING` after a step of the given kind, R77 and R121. -/
def runningAfter (k : StepKind) (s : State) : Bool :=
  match k with
  | .command .start => s.running || decide (0 < s.size.toNat)
  | .command .stop => false
  | .completion => s.running && decide (s.cursor.toNat + 1 < s.size.toNat)
  | .reset => false
  | .command (.wrstg _ _ _) | .command (.load _) | .command .qrun | .command .qcap => s.running
  | .illegalWord | .hostOther | .timer | .otherEntry => s.running

/-- `CURSOR` after a step of the given kind, as a number, R77 and R121. -/
def cursorAfter (k : StepKind) (s : State) : Nat :=
  match k with
  | .command .start => if s.running = false ∧ 0 < s.size.toNat then 0 else s.cursor.toNat
  | .command (.load n) => if s.running = false ∧ n.toNat ≤ Config.max then 0 else s.cursor.toNat
  | .completion => if s.running = true then s.cursor.toNat + 1 else s.cursor.toNat
  | .reset => 0
  | .command (.wrstg _ _ _) | .command .stop | .command .qrun | .command .qcap => s.cursor.toNat
  | .illegalWord | .hostOther | .timer | .otherEntry => s.cursor.toNat

/-- The entries a step of the given kind appends to `TLOG`, R77. -/
def logAppended (k : StepKind) (s : State) : List TimerEvent :=
  match k with
  | .command .start => if s.running = false ∧ 0 < s.size.toNat then [progOf (burstAt s 0)] else []
  | .command .stop => [.disarm]
  | .completion =>
    if s.running = false then []
    else if s.cursor.toNat + 1 < s.size.toNat then [progOf (burstAt s (s.cursor.toNat + 1))]
    else [.disarm]
  | .command (.wrstg _ _ _) | .command (.load _) | .command .qrun | .command .qcap => []
  | .illegalWord | .hostOther | .timer | .otherEntry | .reset => []

/-! Playback. -/

/-- The timer history of R101: a `START` from a state with `SIZE = k` and then `j` accepted completions append
`Prog(BUF[0]), ..., Prog(BUF[min(j, k-1)])`, and `Disarm` if `j >= k`. -/
def playbackLog (s : State) (k j : Nat) : List TimerEvent :=
  (List.range (min j (k - 1) + 1)).map (fun i => progOf (burstAt s i)) ++ (if k ≤ j then [.disarm] else [])

/-- None of the pending accesses performs a command for which `bad` holds. -/
def NoCommand (bad : Instr → Bool) (accesses : List HostAccess) : Prop :=
  ∀ off n v, HostAccess.write off n v ∈ accesses → portReg off n = some .cmd →
    ∀ i, decode v = .ok i → bad i = false

/-- The command is `START` or `STOP`. -/
def startsOrStops : Instr → Bool
  | .start | .stop => true
  | .wrstg _ _ _ | .load _ | .qrun | .qcap => false

/-- No `START`, no `STOP` and no system reset is to come. R101 bars the first two from the steps taken; this bars all
three from everything still to come. -/
def Undisturbed (s : State) : Prop := NoCommand startsOrStops s.host ∧ Turn.reset ∉ s.turns

/-- The command is `STOP`. -/
def isStopCmd : Instr → Bool
  | .stop => true
  | .wrstg _ _ _ | .load _ | .start | .qrun | .qcap => false

/-- Neither `STOP` nor a system reset is to come. -/
def NotStopped (s : State) : Prop := NoCommand isStopCmd s.host ∧ Turn.reset ∉ s.turns

/-- The command is `START`. -/
def isStartCmd : Instr → Bool
  | .start => true
  | .wrstg _ _ _ | .load _ | .stop | .qrun | .qcap => false

/-- Neither `START` nor a system reset is to come. -/
def NotRestarted (s : State) : Prop := NoCommand isStartCmd s.host ∧ Turn.reset ∉ s.turns

/-- How many completions the turns to come raise and serve, `pend` saying whether one is pending already: a raise
followed by an entry for the owned source counts once, however often it was raised (R109), and a simulated completion
counts by itself. -/
def completionsServed (pend : Bool) : List Turn → Nat
  | [] => 0
  | .host :: ts => completionsServed pend ts
  | .timer :: ts => completionsServed true ts
  | .irq src :: ts =>
    if src = Config.ownSrc ∧ pend = true then 1 + completionsServed false ts else completionsServed pend ts
  | .simulated :: ts => 1 + completionsServed false ts
  | .reset :: ts => completionsServed pend ts

/-- The named premise of R120, with the bridge's promise of R119: the turns to come raise and serve a completion for
each of the `k` bursts still to be completed. -/
def TimerLive (k : Nat) (s : State) : Prop := k ≤ completionsServed s.tpend s.turns

/-- The premise of R102: no completion is pending, and none is raised. -/
def NeverRaised (s : State) : Prop := s.tpend = false ∧ Turn.timer ∉ s.turns ∧ Turn.simulated ∉ s.turns

/-- `v` agrees with `BUF` on the valid prefix `BUF[0..SIZE-1]` (R17). -/
def AgreesBelowSize (s : State) (v : Vector Burst Config.max) : Prop :=
  ∀ i (h : i < Config.max), i < s.size.toNat → v[i] = s.buf[i]

end Sys2Proof.Machine
end

