-- ==== Sys2Proof/Certificates/Slice0/Obligations.lean ====
section
/-! DEFINITION. The statements for the provers, in the order of OBLIGATIONS.json. Each docstring names the rules of spec/
it formalises, and the log entry where a clause is the model's own. -/

open Sys2Proof Sys2Proof.Machine

/-! Encoding (30_encoding.md). -/

/-- Decoding the word of a well-formed command gives the command back, at every value of every operand. -/
def Obligations.DecodeEncodeRoundTrip : Prop :=
  ∀ i : Instr, i.wf = true → decode (encode i) = .ok i

/-- A word that decodes is the word of the command it decodes to, and that command is well formed: no two words stand
for one command (R64). -/
def Obligations.EncodeOfDecodedWord : Prop :=
  ∀ (w : Word) (i : Instr), decode w = .ok i → encode i = w ∧ i.wf = true

/-- R62, in arithmetic on the word's number: each of the four cases is rejected under its own name, every other word
is legal, and the all-zero word is illegal. -/
def Obligations.IllegalWordsAreExactlyTheFourCases : Prop :=
  (∀ w : Word,
    (decode w = .error .reservedOpcode ↔ w.toNat / 2 ^ 28 = 0 ∨ 7 ≤ w.toNat / 2 ^ 28) ∧
    (decode w = .error .stagingIndex ↔ w.toNat / 2 ^ 28 = 1 ∧ 10 ≤ w.toNat / 2 ^ 24 % 16) ∧
    (decode w = .error .countReserved ↔ w.toNat / 2 ^ 28 = 2 ∧ w.toNat / 2 ^ 8 % 2 ^ 20 ≠ 0) ∧
    (decode w = .error .operandReserved ↔
      3 ≤ w.toNat / 2 ^ 28 ∧ w.toNat / 2 ^ 28 ≤ 6 ∧ w.toNat % 2 ^ 28 ≠ 0) ∧
    ((∃ i, decode w = .ok i) ↔
      ¬ (w.toNat / 2 ^ 28 = 0 ∨ 7 ≤ w.toNat / 2 ^ 28) ∧
      ¬ (w.toNat / 2 ^ 28 = 1 ∧ 10 ≤ w.toNat / 2 ^ 24 % 16) ∧
      ¬ (w.toNat / 2 ^ 28 = 2 ∧ w.toNat / 2 ^ 8 % 2 ^ 20 ≠ 0) ∧
      ¬ (3 ≤ w.toNat / 2 ^ 28 ∧ w.toNat / 2 ^ 28 ≤ 6 ∧ w.toNat % 2 ^ 28 ≠ 0))) ∧
  decode 0x00000000 = .error .reservedOpcode

/-- R57 to R59 and the sums of R66: which number decodes to which command. -/
def Obligations.DecodedFieldsAreTheFormatTables : Prop :=
  (∀ (w : Word) (idx : BitVec 4) (pulses : BitVec 8) (freq : BitVec 16),
    decode w = .ok (.wrstg idx pulses freq) ↔
      idx.toNat < 10 ∧
        w.toNat = 0x1 * 2 ^ 28 + idx.toNat * 2 ^ 24 + pulses.toNat * 2 ^ 16 + freq.toNat) ∧
  (∀ (w : Word) (n : BitVec 8), decode w = .ok (.load n) ↔ w.toNat = 0x2 * 2 ^ 28 + n.toNat) ∧
  (∀ w : Word, decode w = .ok .start ↔ w.toNat = 0x30000000) ∧
  (∀ w : Word, decode w = .ok .stop ↔ w.toNat = 0x40000000) ∧
  (∀ w : Word, decode w = .ok .qrun ↔ w.toNat = 0x50000000) ∧
  (∀ w : Word, decode w = .ok .qcap ↔ w.toNat = 0x60000000)

/-- Words of 95_test_vectors.md section 2.1 (V-E1, V-E5, V-E6, V-E10, V-E12, V-E14, V-E17, V-E19, V-E20, V-E25). -/
def Obligations.SampleWordsDecode : Prop :=
  decode 0x100103E8 = .ok (.wrstg 0 1 1000) ∧
  decode 0x19FFFFFF = .ok (.wrstg 9 255 65535) ∧
  decode 0x1A0103E8 = .error .stagingIndex ∧
  decode 0x2000000B = .ok (.load 11) ∧
  decode 0x20000100 = .error .countReserved ∧
  decode 0x30000000 = .ok .start ∧
  decode 0x40000000 = .ok .stop ∧
  decode 0x50000000 = .ok .qrun ∧
  decode 0x60000000 = .ok .qcap ∧
  decode 0xFFFFFFFF = .error .reservedOpcode

/-- R46: byte `k` of a word holds bits `8k+7 : 8k`; the four bytes in address order give the word back; and the byte
at window address `BASE + off + k` is byte `k` of the register at `off`. -/
def Obligations.WordBytesAreLittleEndian : Prop :=
  (∀ w : Word,
    (∀ k, k < 4 → (byteOf w k).toNat = w.toNat / 2 ^ (8 * k) % 2 ^ 8) ∧
    wordOfBytes (byteOf w 0) (byteOf w 1) (byteOf w 2) (byteOf w 3) = w) ∧
  (∀ (s : State) (off byteOff : Fin 16) (r : PortReg) (k : Nat),
    portReg off 4 = some r → k < 4 → byteOff.val = off.val + k → windowByte s byteOff = byteOf (readReg r s) k)

/-- The byte decoder and the table decoder read the well-formed command back from its four bytes and from its number;
what follows the four bytes is left over (R55: there is one length). -/
def Obligations.BytesOfCommandDecode : Prop :=
  ∀ i : Instr, i.wf = true →
    (∀ rest, decodeBytes (bytesOfWord (encode i) ++ rest) = some (.ok i, rest)) ∧
    decodeTableWord 32 (encode i).toNat = some i

/-! The assembler (30_encoding.md R66, R67). -/

/-- R66: what each command line encodes, as the sum the table gives, and that an operand too wide for its field is
refused while an index of 10 .. 15 is accepted. -/
def Obligations.AssemblerEncodesByTheTable : Prop :=
  (∀ idx pulses freq : Nat,
    (idx ≤ 15 ∧ pulses ≤ 255 ∧ freq ≤ 65535 →
      ∃ w : Word, assembleLine (.wrstg idx pulses freq) = some [.access (.write 0 4 w)] ∧
        w.toNat = 0x1 * 2 ^ 28 + idx * 2 ^ 24 + pulses * 2 ^ 16 + freq) ∧
    (15 < idx ∨ 255 < pulses ∨ 65535 < freq → assembleLine (.wrstg idx pulses freq) = none)) ∧
  (∀ n : Nat,
    (n ≤ 255 → ∃ w : Word, assembleLine (.load n) = some [.access (.write 0 4 w)] ∧ w.toNat = 0x2 * 2 ^ 28 + n) ∧
    (255 < n → assembleLine (.load n) = none)) ∧
  assembleLine .start = some [.access (.write 0 4 0x30000000)] ∧
  assembleLine .stop = some [.access (.write 0 4 0x40000000)] ∧
  assembleLine .qrun = some [.access (.write 0 4 0x50000000)] ∧
  assembleLine .qcap = some [.access (.write 0 4 0x60000000)] ∧
  assembleLine .stopq = some [.access (.write 0 4 0x40000000), .access (.write 0 4 0x50000000)]

/-- R67: `PLAY` of at most `MAX` bursts that fit their fields assembles, and its accesses, run from any state, end
with the bursts in `BUF` in order if the block was Idle: `SIZE` is their number, `RESULT` is 1, and playback runs at
cursor 0 exactly if there is a burst. `PLAY` of more than `MAX` bursts is refused. -/
def Obligations.PlayLoadsAndStarts : Prop :=
  (∀ bursts : List (Nat × Nat), Config.max < bursts.length → assembleLine (.play bursts) = none) ∧
  (∀ (bursts : List (Nat × Nat)) (s : State),
    bursts.length ≤ Config.max → (∀ b ∈ bursts, b.1 ≤ 255 ∧ b.2 ≤ 65535) → s.running = false →
    ∃ ops t, assembleLine (.play bursts) = some ops ∧ ops.length = bursts.length + 2 ∧
      runSteps ops.length (withProgram ops s) = .next t ∧
      (∀ i (h : i < bursts.length),
        burstAt t i = { pulses := BitVec.ofNat 8 (bursts[i]).1, freq := BitVec.ofNat 16 (bursts[i]).2 }) ∧
      t.size.toNat = bursts.length ∧ t.result = 1 ∧ t.cursor = 0 ∧ t.running = decide (0 < bursts.length) ∧
      t.host = [] ∧ t.turns = [])

/-! The commands (40_buffer_load.md, 41_playback_control.md). Every command completes in every state. -/

/-- R68: for an index below `MAX` the word of R57 is `WRSTG`, which in every state writes one staging entry, unchanged,
clears `ILL` and changes nothing else; for an index of `MAX` or more the word is illegal, sets `ILL` and writes
nothing. -/
def Obligations.WrstgWritesOneStagingEntry : Prop :=
  ∀ (idx : BitVec 4) (pulses : BitVec 8) (freq : BitVec 16) (s : State) (w : Word),
    w.toNat = 0x1 * 2 ^ 28 + idx.toNat * 2 ^ 24 + pulses.toNat * 2 ^ 16 + freq.toNat →
    (idx.toNat < Config.max →
      decode w = .ok (.wrstg idx pulses freq) ∧
      ∃ t, exec (.wrstg idx pulses freq) s = .next t ∧
        (∀ i (h : i < Config.max),
          t.stg[i] = if i = idx.toNat then { pulses := pulses, freq := freq } else s.stg[i]) ∧
        t = { s with ill := false, stg := t.stg }) ∧
    (Config.max ≤ idx.toNat →
      decode w = .error .stagingIndex ∧ execWord w s = .next { s with ill := true })

/-- R69: the word of `LOAD n` (R58), and all three outcomes of the command, with everything each leaves unchanged. -/
def Obligations.LoadCommitsOrRefuses : Prop :=
  ∀ (n : BitVec 8) (s : State),
    decode (BitVec.ofNat 32 (0x2 * 2 ^ 28 + n.toNat)) = .ok (.load n) ∧
    ∃ t, exec (.load n) s = .next t ∧
      (s.running = true → t = { s with ill := false, result := 0 }) ∧
      (s.running = false → Config.max < n.toNat → t = { s with ill := false, result := 0 }) ∧
      (s.running = false → n.toNat ≤ Config.max →
        t.size.toNat = n.toNat ∧
        (∀ i (h : i < Config.max), t.buf[i] = if i < n.toNat then s.stg[i] else s.buf[i]) ∧
        t = { s with ill := false, result := 1, cursor := 0, size := t.size, buf := t.buf })

/-- R71: a failed `LOAD` changes `RESULT` and `ILL` and nothing else, and `ILL` is 0 after it; and every `LOAD` of a
length above the capacity fails. -/
def Obligations.FailedLoadChangesOnlyResultAndIll : Prop :=
  (∀ (n : BitVec 8) (s t : State), exec (.load n) s = .next t → t.result = 0 →
    t = { s with ill := false, result := 0 }) ∧
  (∀ (n : BitVec 8) (s : State), Config.max < n.toNat → ∃ t, exec (.load n) s = .next t ∧ t.result = 0)

/-- R73: the word of `START`, which begins at burst 0, or does nothing but clear `ILL` when `SIZE = 0` or the block is
running. -/
def Obligations.StartBeginsAtBurstZero : Prop :=
  decode 0x30000000 = .ok .start ∧
  ∀ s : State,
    ∃ t, exec .start s = .next t ∧
      (s.size = 0 ∨ s.running = true → t = { s with ill := false }) ∧
      (s.size ≠ 0 → s.running = false →
        t = { s with
          ill := false
          cursor := 0
          running := true
          tarr := reload s.buf[0].freq
          trcr := repeatCount s.buf[0].pulses
          tie := true
          tlog := s.tlog ++ [.prog (reload s.buf[0].freq) (repeatCount s.buf[0].pulses)] })

/-- R74: the word of `STOP`, which ends playback, masks the source, drops a pending completion and records `Disarm`
(R94), in every state; `CURSOR`, `TARR`, `TRCR` and all else keep their values. -/
def Obligations.StopDisarmsAlways : Prop :=
  decode 0x40000000 = .ok .stop ∧
  ∀ s : State,
    ∃ t, exec .stop s = .next t ∧ t.running = false ∧ t.tie = false ∧ t.tpend = false ∧
      t.tlog = s.tlog ++ [.disarm] ∧
      t = { s with ill := false, running := false, tie := false, tpend := false, tlog := t.tlog }

/-- R75 and R76: the words of the queries, which answer in `RESULT` and change nothing else but `ILL`. -/
def Obligations.QueriesAnswerInResult : Prop :=
  (decode 0x50000000 = .ok .qrun ∧ decode 0x60000000 = .ok .qcap) ∧
  ∀ s : State,
    (∃ t, exec .qrun s = .next t ∧ t.result.toNat = (if s.running then 1 else 0) ∧
      t = { s with ill := false, result := t.result }) ∧
    (∃ t, exec .qcap s = .next t ∧ t.result.toNat = 10 ∧ t = { s with ill := false, result := t.result })

/-- R79, first part: a second `STOP` changes nothing but the history, which grows by one more `Disarm`. -/
def Obligations.StopTwiceAddsOnlyOneDisarm : Prop :=
  ∀ s t : State, exec .stop s = .next t →
    ∃ u, exec .stop t = .next u ∧ u = { t with tlog := t.tlog ++ [.disarm] }

/-- R48: repeating `START`, or repeating `LOAD n`, leaves the state as it is. -/
def Obligations.StartAndLoadAreIdempotent : Prop :=
  (∀ s t : State, exec .start s = .next t → exec .start t = .next t) ∧
  (∀ (n : BitVec 8) (s t : State), exec (.load n) s = .next t → exec (.load n) t = .next t)

/-- R63: an illegal word written to CMD sets `ILL` and changes nothing else; a legal word performs its command, and
`ILL` is 0 after it. -/
def Obligations.ExecWritesIll : Prop :=
  ∀ (w : Word) (s : State),
    ((∃ e, decode w = .error e) → execWord w s = .next { s with ill := true }) ∧
    (∀ i, decode w = .ok i → execWord w s = exec i s ∧ ∃ t, exec i s = .next t ∧ t.ill = false)

/-! The timer register programmer (42_timer_programmer.md). -/

/-- R80: the clamp, with its corner cases. -/
def Obligations.ClampIsToTheBounds : Prop :=
  (∀ f : BitVec 16,
    (f.toNat < 100 → clampF f = 100) ∧
    (100 ≤ f.toNat → f.toNat ≤ 20000 → clampF f = f.toNat) ∧
    (20000 < f.toNat → clampF f = 20000)) ∧
  clampF 0 = 100 ∧ clampF 99 = 100 ∧ clampF 100 = 100 ∧
  clampF 20000 = 20000 ∧ clampF 20001 = 20000 ∧ clampF 65535 = 20000

/-- R81 to R83: the stored reload value is the truncated quotient less one, exactly, with nothing lost in the 16
bits; the divisor lies between 200 and 40000, the value between 24 and 4999, and it does not increase with the clamped
frequency. -/
def Obligations.ReloadIsTruncatedQuotientInRange : Prop :=
  (∀ f : BitVec 16,
    200 ≤ 2 * clampF f ∧ 2 * clampF f ≤ 40000 ∧ 24 ≤ (reload f).toNat ∧ (reload f).toNat ≤ 4999 ∧
    ((reload f).toNat + 1) * (2 * clampF f) ≤ 1000000 ∧
    1000000 < ((reload f).toNat + 2) * (2 * clampF f)) ∧
  (∀ f g : BitVec 16, clampF f ≤ clampF g → (reload g).toNat ≤ (reload f).toNat)

/-- R84 and R85: a pulse count of 1 or more gives one repetition less, 0 gives 255. -/
def Obligations.RepetitionCountIsPulsesLessOne : Prop :=
  (∀ p : BitVec 8, 1 ≤ p.toNat → (repeatCount p).toNat = p.toNat - 1) ∧ (repeatCount 0).toNat = 255

/-- R93 and R94: what `TimerProgram` and `TimerDisarm` write, and that they write nothing else; `TimerProgram` does
not write `TPEND`, `TimerDisarm` keeps `TARR` and `TRCR`. -/
def Obligations.TimerPortWrites : Prop :=
  ∀ (b : Burst) (s : State),
    ((timerProgram b s).tarr = reload b.freq ∧ (timerProgram b s).trcr = repeatCount b.pulses ∧
      (timerProgram b s).tie = true ∧
      (timerProgram b s).tlog = s.tlog ++ [.prog (reload b.freq) (repeatCount b.pulses)] ∧
      timerProgram b s =
        { s with
          tarr := (timerProgram b s).tarr
          trcr := (timerProgram b s).trcr
          tie := (timerProgram b s).tie
          tlog := (timerProgram b s).tlog }) ∧
    ((timerDisarm s).tie = false ∧ (timerDisarm s).tpend = false ∧
      (timerDisarm s).tlog = s.tlog ++ [.disarm] ∧
      timerDisarm s = { s with tie := false, tpend := false, tlog := (timerDisarm s).tlog })

/-- R133: the burst in the timer lasts between 25 and 1 280 000 ticks, whatever burst was programmed. The duration
itself rests on the presumption of log 17. -/
def Obligations.BurstLengthRange : Prop :=
  ∀ b : Burst, 25 ≤ burstTicks (reload b.freq) (repeatCount b.pulses) ∧
    burstTicks (reload b.freq) (repeatCount b.pulses) ≤ 1280000

/-! The completion reaction, the timer agent and the bridge (43_completion.md, 60_exceptions.md). -/

/-- R97 and R100, the step that goes on to the next burst: in every state of the invariant in which a burst is left,
with all that does not change. -/
def Obligations.CompletionProgramsNextBurst : Prop :=
  ∀ s : State, Inv s → s.running = true → s.cursor.toNat + 1 < s.size.toNat →
    (complete s).cursor.toNat = s.cursor.toNat + 1 ∧
    ∃ b, s.buf[s.cursor.toNat + 1]? = some b ∧
      complete s =
        { s with
          cursor := (complete s).cursor
          tarr := reload b.freq
          trcr := repeatCount b.pulses
          tie := true
          tlog := s.tlog ++ [.prog (reload b.freq) (repeatCount b.pulses)] }

/-- R99: the completion of the last burst performs `STOP`'s body, and leaves `CURSOR` equal to `SIZE`. -/
def Obligations.LastCompletionStops : Prop :=
  ∀ s : State, Inv s → s.running = true → s.size.toNat ≤ s.cursor.toNat + 1 →
    complete s =
      { s with
        cursor := s.size
        running := false
        tie := false
        tpend := false
        tlog := s.tlog ++ [.disarm] }

/-- R98: while Idle a completion, real or simulated, advances nothing and appends nothing; the request is gone. -/
def Obligations.IdleCompletionChangesNothing : Prop :=
  ∀ s : State, s.running = false →
    complete s = s ∧ bridgeStep s = { s with tpend := false } ∧ simulatedCompletion s = { s with tpend := false }

/-- R108 and R109: the timer's turn raises the request if `TIE = 1`, changes nothing else, and is merged into a request
already pending. That a turn with `TIE = 0` changes nothing is the model's form of 'the timer has no step' (log 2). -/
def Obligations.TimerRaisesOnlyWhileArmed : Prop :=
  ∀ (s : State) (ts : List Turn), s.turns = .timer :: ts →
    ∃ t, step s = .next t ∧
      (s.tie = true → t = { s with turns := ts, tpend := true }) ∧
      (s.tie = false → t = { s with turns := ts }) ∧
      (s.tie = true → s.tpend = true → t = { s with turns := ts })

/-- R110: the bridge step acknowledges and completes in one step; no request is pending after it. -/
def Obligations.BridgeAcknowledgesAndCompletes : Prop :=
  ∀ (s : State) (ts : List Turn), s.turns = .irq Config.ownSrc :: ts → s.tpend = true →
    ∃ t, step s = .next t ∧ t = complete { s with turns := ts, tpend := false } ∧ t.tpend = false

/-- R111: a foreign interrupt entry, and a spurious one for the owned source, change nothing; the turn is over. -/
def Obligations.ForeignAndSpuriousEntriesChangeNothing : Prop :=
  ∀ (s : State) (src : Nat) (ts : List Turn), s.turns = .irq src :: ts →
    src ≠ Config.ownSrc ∨ s.tpend = false → step s = .next { s with turns := ts }

/-! The host port (20_memory.md, 10_state.md). -/

/-- R34: the bits of STATUS. -/
def Obligations.StatusBits : Prop :=
  ∀ s : State,
    (readReg .status s).toNat % 2 = (if s.running then 1 else 0) ∧
    (readReg .status s).toNat / 2 % 2 = (if s.ill then 1 else 0) ∧
    (readReg .status s).toNat / 2 ^ 2 % 2 ^ 2 = 0 ∧
    (readReg .status s).toNat / 2 ^ 4 % 2 ^ 4 = s.size.toNat ∧
    (readReg .status s).toNat / 2 ^ 8 % 2 ^ 4 = s.cursor.toNat ∧
    (readReg .status s).toNat / 2 ^ 12 = 0

/-- R36: the bits of TIMER. -/
def Obligations.TimerBits : Prop :=
  ∀ s : State,
    (readReg .timer s).toNat % 2 ^ 16 = s.tarr.toNat ∧
    (readReg .timer s).toNat / 2 ^ 16 % 2 ^ 8 = s.trcr.toNat ∧
    (readReg .timer s).toNat / 2 ^ 24 % 2 = (if s.tie then 1 else 0) ∧
    (readReg .timer s).toNat / 2 ^ 25 % 2 = (if s.tpend then 1 else 0) ∧
    (readReg .timer s).toNat / 2 ^ 26 = 0

/-- R45: an access reaches a register exactly if it is of four bytes at an aligned offset, and R44's map says which. -/
def Obligations.OnlyAlignedWordsReachRegisters : Prop :=
  (∀ (off : Fin 16) (n : Nat), portReg off n = none ↔ n ≠ 4 ∨ off.val % 4 ≠ 0 ∨ 0xC < off.val) ∧
  portReg 0x0 4 = some .cmd ∧ portReg 0x4 4 = some .status ∧ portReg 0x8 4 = some .result ∧
  portReg 0xC 4 = some .timer

/-- R43 and R44: the block's window is the sixteen bytes from `BASE`, and no other address is an offset of it. -/
def Obligations.WindowIsSixteenBytes : Prop :=
  (∀ off : Fin 16, windowOffset (windowAddr off) = some off) ∧
  (∀ addr : Nat, windowOffset addr = none ↔ addr < Config.base ∨ Config.base + 16 ≤ addr) ∧
  16 ∣ Config.base

/-- R47 and R48: a legal read returns the register's value and has no side effect on the block. That the value is
recorded in `reads` is the model's form of returning it (log 4). -/
def Obligations.LegalReadReturnsValueOnly : Prop :=
  ∀ (s : State) (off : Fin 16) (r : PortReg) (rest : List HostAccess),
    nextTurn s = .host → s.host = .read off 4 :: rest → portReg off 4 = some r →
    step s =
      .next
        { s with
          turns := s.turns.tail
          host := rest
          reads := s.reads ++ [⟨off, match r with
            | .cmd => 0
            | .status => statusWord s
            | .result => s.result
            | .timer => timerWord s⟩] }

/-- R47: a write to STATUS, RESULT or TIMER is ignored. -/
def Obligations.ReadOnlyRegistersIgnoreWrites : Prop :=
  ∀ (s : State) (off : Fin 16) (v : Word) (rest : List HostAccess),
    nextTurn s = .host → s.host = .write off 4 v :: rest → off = 0x4 ∨ off = 0x8 ∨ off = 0xC →
    step s = .next { s with turns := s.turns.tail, host := rest }

/-- R45 and R115: any other access records `BusAccess(addr, n)` once and changes no state of the block. A write is then
over; a read returns no value and stays the host's next access (log 5). -/
def Obligations.OtherAccessesRaiseBusFault : Prop :=
  ∀ (s : State) (off : Fin 16) (n : Nat) (rest : List HostAccess),
    nextTurn s = .host → portReg off n = none →
    (∀ v, s.host = .write off n v :: rest →
      ∃ t, step s = .next t ∧ Fault.busAccess (Config.base + off.val) n ∈ t.fault ∧
        (∀ f, f ∈ t.fault ↔ f ∈ s.fault ∨ f = .busAccess (Config.base + off.val) n) ∧
        t = { s with turns := s.turns.tail, host := rest, fault := t.fault }) ∧
    (s.host = .read off n :: rest →
      ∃ t, step s = .next t ∧ Fault.busAccess (Config.base + off.val) n ∈ t.fault ∧
        (∀ f, f ∈ t.fault ↔ f ∈ s.fault ∨ f = .busAccess (Config.base + off.val) n) ∧
        t = { s with turns := s.turns.tail, fault := t.fault })

/-- M1 of 93_implementation_defined.md and R45: a read that is no aligned word never gets a value: in every later state
of every run it is still the host's next access, and no read has returned since. -/
def Obligations.FaultedReadNeverReturns : Prop :=
  ∀ (k : Nat) (s t : State) (off : Fin 16) (n : Nat) (rest : List HostAccess),
    s.host = .read off n :: rest → portReg off n = none → runSteps k s = .next t →
    t.host = .read off n :: rest ∧ t.reads = s.reads

/-- R24 and R115: no step removes a fault, not even reset, and only a malformed access of the host adds one. -/
def Obligations.FaultIsNeverCleared : Prop :=
  ∀ s t : State, step s = .next t →
    (∀ f, f ∈ s.fault → f ∈ t.fault) ∧
    (t.fault ≠ s.fault → nextTurn s = .host ∧
      ∃ off n, portReg off n = none ∧
        (s.host.head? = some (.read off n) ∨ ∃ v, s.host.head? = some (.write off n v)))

/-- A step runs the decoded command: with the host's turn next and the write of a legal word to CMD as its next access,
the step is `exec` of the command, in the state with that turn and that access taken off (R55, R60). -/
def Obligations.StepRunsTheDecodedCommand : Prop :=
  ∀ (s : State) (w : Word) (i : Instr) (rest : List HostAccess),
    nextTurn s = .host → s.host = .write 0x0 4 w :: rest → decode w = .ok i →
    step s = exec i { s with turns := s.turns.tail, host := rest }

/-- A word handed to the machine by `withFetchWord` is the one the very next step performs, and nothing else of the
state is disturbed (R15, R37, R55; log 3). -/
def Obligations.FetchedWordIsPerformedNext : Prop :=
  ∀ (s : State) (nbits w : Nat), step (s.withFetchWord nbits w) = execWord (tableWord nbits w) s

/-- R104: every step of every state goes on; no fault outcome and no refusal is ever answered. -/
def Obligations.EveryStepGoesOn : Prop :=
  ∀ s : State, ∃ t, step s = .next t

/-! Reset (70_reset_and_hazards.md R121, 10_state.md R38). -/

/-- R38 and R121: system reset sets every field of the block to its reset value in one step, empties `TLOG` and keeps
`FAULT`. That the host's pending accesses, the turns to come and the values read stay is the model's choice (log 18). -/
def Obligations.ResetSetsEveryField : Prop :=
  ∀ (s : State) (ts : List Turn), s.turns = .reset :: ts →
    ∃ t, step s = .next t ∧
      (∀ i (h : i < Config.max), t.buf[i] = { pulses := 0, freq := 0 } ∧ t.stg[i] = { pulses := 0, freq := 0 }) ∧
      t.size = 0 ∧ t.cursor = 0 ∧ t.running = false ∧ t.result = 0 ∧ t.ill = false ∧ t.tarr = 0 ∧ t.trcr = 0 ∧
      t.tie = false ∧ t.tpend = false ∧ t.tlog = [] ∧ t.fault = s.fault ∧
      t.host = s.host ∧ t.turns = ts ∧ t.reads = s.reads

/-- R34 to R36 and R122: after reset STATUS, RESULT and TIMER read 0, and the first `START` does nothing but clear `ILL`.
That the timer's turn changes nothing is the model's form of R122's 'the timer agent has no step' (log 2). -/
def Obligations.AfterResetNothingPlays : Prop :=
  readReg .status State.reset = 0 ∧ readReg .result State.reset = 0 ∧ readReg .timer State.reset = 0 ∧
  timerTurn State.reset = State.reset ∧ exec .start State.reset = .next State.reset

/-! Whole-machine rules. -/

/-- The invariant holds at reset. -/
def Obligations.InvariantAtReset : Prop := Inv State.reset

/-- Every step keeps the invariant (R39, R40, R95, with R82's range over the whole history): from every state that
meets it, whichever agent moves. -/
def Obligations.EveryStepKeepsInvariant : Prop :=
  ∀ s t : State, Inv s → step s = .next t → Inv t

/-- R42 and R41: who writes each field. If a step changes a field, it is of a kind the table names for it. -/
def Obligations.OnlyNamedStepsWriteEachField : Prop :=
  ∀ s t : State, step s = .next t →
    (t.buf ≠ s.buf ∨ t.size ≠ s.size →
      stepKind s = .reset ∨ ((∃ n, stepKind s = .command (.load n)) ∧ s.running = false)) ∧
    (t.cursor ≠ s.cursor →
      stepKind s = .reset ∨ stepKind s = .completion ∨ stepKind s = .command .start ∨
        ∃ n, stepKind s = .command (.load n)) ∧
    (t.running ≠ s.running →
      stepKind s = .reset ∨ stepKind s = .completion ∨ stepKind s = .command .start ∨
        stepKind s = .command .stop) ∧
    (t.stg ≠ s.stg → stepKind s = .reset ∨ ∃ idx p f, stepKind s = .command (.wrstg idx p f)) ∧
    (t.result ≠ s.result →
      stepKind s = .reset ∨ stepKind s = .command .qrun ∨ stepKind s = .command .qcap ∨
        ∃ n, stepKind s = .command (.load n)) ∧
    (t.ill ≠ s.ill → stepKind s = .reset ∨ stepKind s = .illegalWord ∨ ∃ i, stepKind s = .command i) ∧
    (t.tarr ≠ s.tarr ∨ t.trcr ≠ s.trcr →
      stepKind s = .reset ∨ stepKind s = .completion ∨ stepKind s = .command .start) ∧
    (t.tie ≠ s.tie →
      stepKind s = .reset ∨ stepKind s = .completion ∨ stepKind s = .command .start ∨
        stepKind s = .command .stop) ∧
    (t.tpend ≠ s.tpend →
      stepKind s = .reset ∨ stepKind s = .completion ∨ stepKind s = .command .stop ∨
        (stepKind s = .timer ∧ t.tpend = true))

/-- R77: the complete transition table, for the mode, the cursor and the history, in every state of the invariant. -/
def Obligations.TransitionTable : Prop :=
  ∀ s t : State, Inv s → step s = .next t →
    t.running = runningAfter (stepKind s) s ∧
    t.cursor.toNat = cursorAfter (stepKind s) s ∧
    (stepKind s ≠ .reset → t.tlog = s.tlog ++ logAppended (stepKind s) s)

/-- R41: no step but a system reset changes the burst buffer or its size while playback runs. -/
def Obligations.BufferFixedWhileRunning : Prop :=
  ∀ s t : State, step s = .next t → s.running = true → nextTurn s ≠ .reset → t.buf = s.buf ∧ t.size = s.size

/-- R72: the staging buffer survives every step but `WRSTG` and reset, over whole runs: with no `WRSTG` and no reset to
come it is the same in every later state. -/
def Obligations.StagingSurvivesEverythingElse : Prop :=
  ∀ (k : Nat) (s t : State),
    NoCommand (fun i => match i with
      | .wrstg _ _ _ => true
      | .load _ | .start | .stop | .qrun | .qcap => false) s.host →
    Turn.reset ∉ s.turns → runSteps k s = .next t → t.stg = s.stg

/-- R21 and R100: playback does not read `STG`. Two states that differ in `STG` alone take the same step, but for `STG`,
unless the step is a `LOAD` that succeeds. -/
def Obligations.StagingIsReadOnlyByLoad : Prop :=
  ∀ (s t : State) (v : Vector Burst Config.max), step s = .next t →
    (∀ n, stepKind s = .command (.load n) → s.running = true ∨ Config.max < n.toNat) →
    ∃ u, step { s with stg := v } = .next u ∧ u = { t with stg := u.stg }

/-- From R101: after a `START` that begins playback, with no further `START`, no `STOP` and no reset to come, every run's
history is exactly the bursts in stored order as far as completions were accepted, then `Disarm`. The premise
`Undisturbed` bars those from everything still to come, where R101 bars them from the steps taken only. -/
def Obligations.PlaybackInStoredOrder : Prop :=
  ∀ (n : Nat) (s t u : State), Inv s → s.running = false → 0 < s.size.toNat →
    exec .start s = .next t → Undisturbed t → runSteps n t = .next u →
    u.tlog = s.tlog ++ playbackLog s s.size.toNat (completionsTaken n t)

/-- R78: from any Idle state with `SIZE = k > 0`, whatever happened before, `START` and `k` accepted completions append
all of `Prog(BUF[0]), ..., Prog(BUF[k-1])` and `Disarm`, and leave the block Idle with `CURSOR = SIZE` if no `LOAD` is to
come. No further `START`, no `STOP` and no reset is to come. -/
def Obligations.RestartReplaysFromZero : Prop :=
  ∀ (n : Nat) (s t u : State), Inv s → s.running = false → 0 < s.size.toNat →
    exec .start s = .next t → Undisturbed t → runSteps n t = .next u →
    completionsTaken n t = s.size.toNat →
    u.tlog = s.tlog ++ (List.range s.size.toNat).map (fun i => progOf (burstAt s i)) ++ [.disarm] ∧
    u.running = false ∧ (NoCommand (fun i => match i with
      | .load _ => true
      | .wrstg _ _ _ | .start | .stop | .qrun | .qcap => false) t.host → u.cursor = u.size)

/-- R79, second part: after `STOP`, with no `START` and no reset to come, no completion, real or simulated, advances
anything: `RUNNING` stays 0 and no burst is programmed; without a `LOAD`, `CURSOR` and `BUF` stay as well. -/
def Obligations.NothingAdvancesAfterStop : Prop :=
  ∀ (n : Nat) (s t u : State), exec .stop s = .next t → NotRestarted t → runSteps n t = .next u →
    u.running = false ∧ (u.tarr = t.tarr ∧ u.trcr = t.trcr ∧ u.tie = false ∧ u.tpend = false) ∧
    (NoCommand (fun i => match i with
      | .load _ => true
      | .wrstg _ _ _ | .start | .stop | .qrun | .qcap => false) t.host → u.cursor = t.cursor ∧ u.buf = t.buf)

/-- R120 with R119: under the named premise that the turns to come raise and serve a completion for each burst left,
and with no `STOP` and no reset to come, playback ends: within those turns a state is reached in which the block is
Idle. -/
def Obligations.PlaybackEndsIfTimerLive : Prop :=
  ∀ s : State, Inv s → s.running = true → NotStopped s →
    TimerLive (s.size.toNat - s.cursor.toNat) s →
    ∃ n t, n ≤ s.turns.length ∧ runSteps n s = .next t ∧ t.running = false

/-- R102: if no completion is pending and none is ever raised, and the host does not stop the block, playback stalls:
every run leaves `RUNNING` 1 and `CURSOR` where it is. -/
def Obligations.MissedCompletionStalls : Prop :=
  ∀ (n : Nat) (s t : State), s.running = true → NotStopped s → NeverRaised s → runSteps n s = .next t →
    t.running = true ∧ t.cursor = s.cursor ∧ t.buf = s.buf ∧ t.tlog = s.tlog

/-- R17, D11 and U10: the entries of `BUF` at `SIZE` and above cannot be observed: two states that differ there alone
give, in every run, the same values to the host's reads and the same timer history. -/
def Obligations.BufferTailIsUnobservable : Prop :=
  ∀ (n : Nat) (s t : State) (v : Vector Burst Config.max), AgreesBelowSize s v → runSteps n s = .next t →
    ∃ u, runSteps n { s with buf := v } = .next u ∧ u.reads = t.reads ∧ u.tlog = t.tlog

/-- R112: a timer step commutes with every host command but `STOP`, while the source is armed by a running playback. -/
def Obligations.TimerStepCommutesWithCommands : Prop :=
  ∀ (i : Instr) (s t : State), Inv s → s.tie = true → i ≠ .stop → exec i s = .next t →
    exec i (timerTurn s) = .next (timerTurn t)

/-- R112: which host commands commute with a bridge step while playback runs: `WRSTG` and `QCAP` always; `START`,
`QRUN` and `LOAD` if the completion is not the final one. (`START` after a final completion restarts playback by R73;
R112's list does not name that order, log 20.) -/
def Obligations.BridgeStepCommutesWithCommands : Prop :=
  ∀ (i : Instr) (s t : State), s.running = true → i ≠ .stop →
    (s.cursor.toNat + 1 < s.size.toNat ∨ i = .qcap ∨ ∃ idx p f, i = .wrstg idx p f) →
    exec i s = .next t → exec i (bridgeStep s) = .next (bridgeStep t)

/-- R112(a): the two orders of `STOP` and a bridge step. `STOP` first drops the completion, and the entry that comes
after it is spurious; the bridge step first lets playback advance by one, and `STOP` ends it there. -/
def Obligations.StopAndBridgeInEitherOrder : Prop :=
  ∀ s t : State, Inv s → s.running = true → s.tpend = true → s.cursor.toNat + 1 < s.size.toNat →
    exec .stop s = .next t →
    (irqEntry Config.ownSrc t = t ∧ t.cursor = s.cursor ∧ t.tlog = s.tlog ++ [.disarm]) ∧
    ∃ u, exec .stop (irqEntry Config.ownSrc s) = .next u ∧ u.running = false ∧
      u.cursor.toNat = s.cursor.toNat + 1 ∧
      u.tlog = s.tlog ++ [progOf (burstAt s (s.cursor.toNat + 1)), .disarm]
end

