-- ==== Sys2Proof/Laws/Decode.lean ====
section
/-! SUPPORT. Fields, formats and words as numbers, for the proofs about decoding and encoding. -/

namespace Sys2Proof

theorem field_toNat (w : Word) (lo len : Nat) : (field w lo len).toNat = w.toNat / 2 ^ lo % 2 ^ len := by
  simp [field, BitVec.extractLsb'_toNat, Nat.shiftRight_eq_div_pow]

theorem field_eq_zero (w : Word) (lo len : Nat) : field w lo len = 0 ↔ w.toNat / 2 ^ lo % 2 ^ len = 0 := by
  rw [← BitVec.toNat_inj, field_toNat]
  simp

theorem opcodeOf_toNat (w : Word) : (opcodeOf w).toNat = w.toNat / 2 ^ 28 := by
  have := w.isLt
  rw [opcodeOf, field_toNat]
  omega

/-- A concatenation of bit vectors as a sum of numbers. -/
theorem append_toNat {m n : Nat} (a : BitVec m) (b : BitVec n) : (a ++ b).toNat = a.toNat * 2 ^ n + b.toNat := by
  rw [BitVec.toNat_append, Nat.shiftLeft_eq, Nat.mul_comm, ← Nat.two_pow_add_eq_or_of_lt b.isLt]

theorem encode_toNat (i : Instr) : (encode i).toNat = i.opcode.toNat * 2 ^ 28 + i.operandBits.toNat :=
  append_toNat _ _

theorem operandBits_wrstg (idx : BitVec 4) (p : BitVec 8) (f : BitVec 16) :
    (Instr.wrstg idx p f).operandBits.toNat = idx.toNat * 2 ^ 24 + p.toNat * 2 ^ 16 + f.toNat := by
  refine (append_toNat (idx ++ p) f).trans ?_
  rw [append_toNat]
  ring

theorem operandBits_load (n : BitVec 8) : (Instr.load n).operandBits.toNat = n.toNat := by
  refine (append_toNat (0 : BitVec 20) n).trans ?_
  simp

/-- Every encoded word carries its command's opcode in bits 31:28. -/
theorem opcodeOf_encode (i : Instr) : opcodeOf (encode i) = i.opcode := by
  apply BitVec.eq_of_toNat_eq
  have := i.operandBits.isLt
  rw [opcodeOf_toNat, encode_toNat]
  omega

end Sys2Proof
end

