-- ==== Sys2Proof/Laws/State.lean ====
section
/-! SUPPORT. One lemma per field per update, each true by definition, so that no proof unfolds a record update. -/

namespace Sys2Proof.Machine

/-! `setIll`. -/

@[simp] theorem setIll_buf (b : Bool) (s : State) : (setIll b s).buf = s.buf := rfl
@[simp] theorem setIll_size (b : Bool) (s : State) : (setIll b s).size = s.size := rfl
@[simp] theorem setIll_cursor (b : Bool) (s : State) : (setIll b s).cursor = s.cursor := rfl
@[simp] theorem setIll_running (b : Bool) (s : State) : (setIll b s).running = s.running := rfl
@[simp] theorem setIll_stg (b : Bool) (s : State) : (setIll b s).stg = s.stg := rfl
@[simp] theorem setIll_result (b : Bool) (s : State) : (setIll b s).result = s.result := rfl
@[simp] theorem setIll_ill (b : Bool) (s : State) : (setIll b s).ill = b := rfl
@[simp] theorem setIll_fault (b : Bool) (s : State) : (setIll b s).fault = s.fault := rfl
@[simp] theorem setIll_tarr (b : Bool) (s : State) : (setIll b s).tarr = s.tarr := rfl
@[simp] theorem setIll_trcr (b : Bool) (s : State) : (setIll b s).trcr = s.trcr := rfl
@[simp] theorem setIll_tie (b : Bool) (s : State) : (setIll b s).tie = s.tie := rfl
@[simp] theorem setIll_tpend (b : Bool) (s : State) : (setIll b s).tpend = s.tpend := rfl
@[simp] theorem setIll_tlog (b : Bool) (s : State) : (setIll b s).tlog = s.tlog := rfl
@[simp] theorem setIll_host (b : Bool) (s : State) : (setIll b s).host = s.host := rfl
@[simp] theorem setIll_turns (b : Bool) (s : State) : (setIll b s).turns = s.turns := rfl
@[simp] theorem setIll_reads (b : Bool) (s : State) : (setIll b s).reads = s.reads := rfl

/-! `setResult`. -/

@[simp] theorem setResult_buf (v : Word) (s : State) : (setResult v s).buf = s.buf := rfl
@[simp] theorem setResult_size (v : Word) (s : State) : (setResult v s).size = s.size := rfl
@[simp] theorem setResult_cursor (v : Word) (s : State) : (setResult v s).cursor = s.cursor := rfl
@[simp] theorem setResult_running (v : Word) (s : State) : (setResult v s).running = s.running := rfl
@[simp] theorem setResult_stg (v : Word) (s : State) : (setResult v s).stg = s.stg := rfl
@[simp] theorem setResult_result (v : Word) (s : State) : (setResult v s).result = v := rfl
@[simp] theorem setResult_ill (v : Word) (s : State) : (setResult v s).ill = s.ill := rfl
@[simp] theorem setResult_fault (v : Word) (s : State) : (setResult v s).fault = s.fault := rfl
@[simp] theorem setResult_tarr (v : Word) (s : State) : (setResult v s).tarr = s.tarr := rfl
@[simp] theorem setResult_trcr (v : Word) (s : State) : (setResult v s).trcr = s.trcr := rfl
@[simp] theorem setResult_tie (v : Word) (s : State) : (setResult v s).tie = s.tie := rfl
@[simp] theorem setResult_tpend (v : Word) (s : State) : (setResult v s).tpend = s.tpend := rfl
@[simp] theorem setResult_tlog (v : Word) (s : State) : (setResult v s).tlog = s.tlog := rfl
@[simp] theorem setResult_host (v : Word) (s : State) : (setResult v s).host = s.host := rfl
@[simp] theorem setResult_turns (v : Word) (s : State) : (setResult v s).turns = s.turns := rfl
@[simp] theorem setResult_reads (v : Word) (s : State) : (setResult v s).reads = s.reads := rfl

/-! `writeStaging`. -/

@[simp] theorem writeStaging_buf (i : Nat) (b : Burst) (s : State) : (writeStaging i b s).buf = s.buf := rfl
@[simp] theorem writeStaging_size (i : Nat) (b : Burst) (s : State) : (writeStaging i b s).size = s.size := rfl
@[simp] theorem writeStaging_cursor (i : Nat) (b : Burst) (s : State) : (writeStaging i b s).cursor = s.cursor := rfl
@[simp] theorem writeStaging_running (i : Nat) (b : Burst) (s : State) : (writeStaging i b s).running = s.running := rfl
@[simp] theorem writeStaging_stg (i : Nat) (b : Burst) (s : State) : (writeStaging i b s).stg = s.stg.setIfInBounds i b := rfl
@[simp] theorem writeStaging_result (i : Nat) (b : Burst) (s : State) : (writeStaging i b s).result = s.result := rfl
@[simp] theorem writeStaging_ill (i : Nat) (b : Burst) (s : State) : (writeStaging i b s).ill = s.ill := rfl
@[simp] theorem writeStaging_fault (i : Nat) (b : Burst) (s : State) : (writeStaging i b s).fault = s.fault := rfl
@[simp] theorem writeStaging_tarr (i : Nat) (b : Burst) (s : State) : (writeStaging i b s).tarr = s.tarr := rfl
@[simp] theorem writeStaging_trcr (i : Nat) (b : Burst) (s : State) : (writeStaging i b s).trcr = s.trcr := rfl
@[simp] theorem writeStaging_tie (i : Nat) (b : Burst) (s : State) : (writeStaging i b s).tie = s.tie := rfl
@[simp] theorem writeStaging_tpend (i : Nat) (b : Burst) (s : State) : (writeStaging i b s).tpend = s.tpend := rfl
@[simp] theorem writeStaging_tlog (i : Nat) (b : Burst) (s : State) : (writeStaging i b s).tlog = s.tlog := rfl
@[simp] theorem writeStaging_host (i : Nat) (b : Burst) (s : State) : (writeStaging i b s).host = s.host := rfl
@[simp] theorem writeStaging_turns (i : Nat) (b : Burst) (s : State) : (writeStaging i b s).turns = s.turns := rfl
@[simp] theorem writeStaging_reads (i : Nat) (b : Burst) (s : State) : (writeStaging i b s).reads = s.reads := rfl

/-! `commitStaging`. -/

@[simp] theorem commitStaging_buf (n : Nat) (s : State) : (commitStaging n s).buf =
    Vector.ofFn fun i => if i.val < n then s.stg[i] else s.buf[i] := rfl
@[simp] theorem commitStaging_size (n : Nat) (s : State) : (commitStaging n s).size = BitVec.ofNat 4 n := rfl
@[simp] theorem commitStaging_cursor (n : Nat) (s : State) : (commitStaging n s).cursor = 0 := rfl
@[simp] theorem commitStaging_running (n : Nat) (s : State) : (commitStaging n s).running = s.running := rfl
@[simp] theorem commitStaging_stg (n : Nat) (s : State) : (commitStaging n s).stg = s.stg := rfl
@[simp] theorem commitStaging_result (n : Nat) (s : State) : (commitStaging n s).result = s.result := rfl
@[simp] theorem commitStaging_ill (n : Nat) (s : State) : (commitStaging n s).ill = s.ill := rfl
@[simp] theorem commitStaging_fault (n : Nat) (s : State) : (commitStaging n s).fault = s.fault := rfl
@[simp] theorem commitStaging_tarr (n : Nat) (s : State) : (commitStaging n s).tarr = s.tarr := rfl
@[simp] theorem commitStaging_trcr (n : Nat) (s : State) : (commitStaging n s).trcr = s.trcr := rfl
@[simp] theorem commitStaging_tie (n : Nat) (s : State) : (commitStaging n s).tie = s.tie := rfl
@[simp] theorem commitStaging_tpend (n : Nat) (s : State) : (commitStaging n s).tpend = s.tpend := rfl
@[simp] theorem commitStaging_tlog (n : Nat) (s : State) : (commitStaging n s).tlog = s.tlog := rfl
@[simp] theorem commitStaging_host (n : Nat) (s : State) : (commitStaging n s).host = s.host := rfl
@[simp] theorem commitStaging_turns (n : Nat) (s : State) : (commitStaging n s).turns = s.turns := rfl
@[simp] theorem commitStaging_reads (n : Nat) (s : State) : (commitStaging n s).reads = s.reads := rfl

/-! `timerProgram`. -/

@[simp] theorem timerProgram_buf (b : Burst) (s : State) : (timerProgram b s).buf = s.buf := rfl
@[simp] theorem timerProgram_size (b : Burst) (s : State) : (timerProgram b s).size = s.size := rfl
@[simp] theorem timerProgram_cursor (b : Burst) (s : State) : (timerProgram b s).cursor = s.cursor := rfl
@[simp] theorem timerProgram_running (b : Burst) (s : State) : (timerProgram b s).running = s.running := rfl
@[simp] theorem timerProgram_stg (b : Burst) (s : State) : (timerProgram b s).stg = s.stg := rfl
@[simp] theorem timerProgram_result (b : Burst) (s : State) : (timerProgram b s).result = s.result := rfl
@[simp] theorem timerProgram_ill (b : Burst) (s : State) : (timerProgram b s).ill = s.ill := rfl
@[simp] theorem timerProgram_fault (b : Burst) (s : State) : (timerProgram b s).fault = s.fault := rfl
@[simp] theorem timerProgram_tarr (b : Burst) (s : State) : (timerProgram b s).tarr = reload b.freq := rfl
@[simp] theorem timerProgram_trcr (b : Burst) (s : State) : (timerProgram b s).trcr = repeatCount b.pulses := rfl
@[simp] theorem timerProgram_tie (b : Burst) (s : State) : (timerProgram b s).tie = true := rfl
@[simp] theorem timerProgram_tpend (b : Burst) (s : State) : (timerProgram b s).tpend = s.tpend := rfl
@[simp] theorem timerProgram_tlog (b : Burst) (s : State) : (timerProgram b s).tlog = s.tlog ++ [progOf b] := rfl
@[simp] theorem timerProgram_host (b : Burst) (s : State) : (timerProgram b s).host = s.host := rfl
@[simp] theorem timerProgram_turns (b : Burst) (s : State) : (timerProgram b s).turns = s.turns := rfl
@[simp] theorem timerProgram_reads (b : Burst) (s : State) : (timerProgram b s).reads = s.reads := rfl

/-! `timerDisarm`. -/

@[simp] theorem timerDisarm_buf (s : State) : (timerDisarm s).buf = s.buf := rfl
@[simp] theorem timerDisarm_size (s : State) : (timerDisarm s).size = s.size := rfl
@[simp] theorem timerDisarm_cursor (s : State) : (timerDisarm s).cursor = s.cursor := rfl
@[simp] theorem timerDisarm_running (s : State) : (timerDisarm s).running = s.running := rfl
@[simp] theorem timerDisarm_stg (s : State) : (timerDisarm s).stg = s.stg := rfl
@[simp] theorem timerDisarm_result (s : State) : (timerDisarm s).result = s.result := rfl
@[simp] theorem timerDisarm_ill (s : State) : (timerDisarm s).ill = s.ill := rfl
@[simp] theorem timerDisarm_fault (s : State) : (timerDisarm s).fault = s.fault := rfl
@[simp] theorem timerDisarm_tarr (s : State) : (timerDisarm s).tarr = s.tarr := rfl
@[simp] theorem timerDisarm_trcr (s : State) : (timerDisarm s).trcr = s.trcr := rfl
@[simp] theorem timerDisarm_tie (s : State) : (timerDisarm s).tie = false := rfl
@[simp] theorem timerDisarm_tpend (s : State) : (timerDisarm s).tpend = false := rfl
@[simp] theorem timerDisarm_tlog (s : State) : (timerDisarm s).tlog = s.tlog ++ [.disarm] := rfl
@[simp] theorem timerDisarm_host (s : State) : (timerDisarm s).host = s.host := rfl
@[simp] theorem timerDisarm_turns (s : State) : (timerDisarm s).turns = s.turns := rfl
@[simp] theorem timerDisarm_reads (s : State) : (timerDisarm s).reads = s.reads := rfl

/-! `afterTurn`. -/

@[simp] theorem afterTurn_buf (s : State) : (afterTurn s).buf = s.buf := rfl
@[simp] theorem afterTurn_size (s : State) : (afterTurn s).size = s.size := rfl
@[simp] theorem afterTurn_cursor (s : State) : (afterTurn s).cursor = s.cursor := rfl
@[simp] theorem afterTurn_running (s : State) : (afterTurn s).running = s.running := rfl
@[simp] theorem afterTurn_stg (s : State) : (afterTurn s).stg = s.stg := rfl
@[simp] theorem afterTurn_result (s : State) : (afterTurn s).result = s.result := rfl
@[simp] theorem afterTurn_ill (s : State) : (afterTurn s).ill = s.ill := rfl
@[simp] theorem afterTurn_fault (s : State) : (afterTurn s).fault = s.fault := rfl
@[simp] theorem afterTurn_tarr (s : State) : (afterTurn s).tarr = s.tarr := rfl
@[simp] theorem afterTurn_trcr (s : State) : (afterTurn s).trcr = s.trcr := rfl
@[simp] theorem afterTurn_tie (s : State) : (afterTurn s).tie = s.tie := rfl
@[simp] theorem afterTurn_tpend (s : State) : (afterTurn s).tpend = s.tpend := rfl
@[simp] theorem afterTurn_tlog (s : State) : (afterTurn s).tlog = s.tlog := rfl
@[simp] theorem afterTurn_host (s : State) : (afterTurn s).host = s.host := rfl
@[simp] theorem afterTurn_turns (s : State) : (afterTurn s).turns = s.turns.tail := rfl
@[simp] theorem afterTurn_reads (s : State) : (afterTurn s).reads = s.reads := rfl

end Sys2Proof.Machine
end

