-- ==== Sys2Proof/Laws/Ops.lean ====
section
/-! SUPPORT. One lemma for each shared operation that says everything it can do, for provers to cite. -/

namespace Sys2Proof.Machine

/-! The buffers. -/

theorem writeStaging_getElem (i : Nat) (b : Burst) (s : State) (j : Nat) (h : j < Config.max) :
    (writeStaging i b s).stg[j] = if i = j then b else s.stg[j] := by
  simp [Vector.getElem_setIfInBounds]

theorem commitStaging_getElem (n : Nat) (s : State) (j : Nat) (h : j < Config.max) :
    (commitStaging n s).buf[j] = if j < n then s.stg[j] else s.buf[j] := by
  simp

theorem burstAt_eq (s : State) (i : Nat) (h : i < Config.max) : burstAt s i = s.buf[i] := dif_pos h

theorem burstAt_congr {s t : State} (h : t.buf = s.buf) (i : Nat) : burstAt t i = burstAt s i := by
  simp only [burstAt, h]

/-! The fault mark. -/

/-- `raiseFault` changes nothing but `fault`. -/
theorem raiseFault_frame (r : Fault) (s : State) : raiseFault r s = { s with fault := (raiseFault r s).fault } := by
  unfold raiseFault
  split <;> rfl

theorem mem_raiseFault (r f : Fault) (s : State) : f ∈ (raiseFault r s).fault ↔ f ∈ s.fault ∨ f = r := by
  unfold raiseFault
  split
  case isTrue h => exact ⟨.inl, by rintro (h' | rfl) <;> assumption⟩
  case isFalse h => simp

theorem raiseFault_nodup (r : Fault) (s : State) (h : s.fault.Nodup) : (raiseFault r s).fault.Nodup := by
  unfold raiseFault
  split
  case isTrue => exact h
  case isFalse hr =>
    simp only [List.nodup_append, h, List.nodup_singleton, List.mem_singleton, true_and]
    rintro a ha b rfl rfl
    exact hr ha

/-! The bodies of the commands. -/

theorem loadBody_running {n : Nat} {s : State} (h : s.running = true) : loadBody n s = setResult 0 s := by
  simp [loadBody, h]

theorem loadBody_long {n : Nat} {s : State} (h : Config.max < n) : loadBody n s = setResult 0 s := by
  unfold loadBody
  simp [h]

theorem loadBody_commits {n : Nat} {s : State} (h : s.running = false) (hn : n ≤ Config.max) :
    loadBody n s = setResult 1 (commitStaging n s) := by
  simp [loadBody, h, Nat.not_lt.mpr hn]

theorem startBody_ignored {s : State} (h : s.size = 0 ∨ s.running = true) : startBody s = s := if_pos h

theorem startBody_begins {s : State} (h : s.size ≠ 0) (hr : s.running = false) :
    startBody s = timerProgram (burstAt s 0) { s with cursor := 0, running := true } := by
  exact if_neg (by rintro (h0 | h1); exacts [h h0, by simp [hr] at h1])

/-! The completion reaction. -/

theorem complete_idle {s : State} (h : s.running = false) : complete s = s := if_pos h

theorem complete_last {s : State} (h : s.running = true) (hc : s.size.toNat ≤ s.cursor.toNat + 1) :
    complete s = stopBody { s with cursor := BitVec.ofNat 4 (s.cursor.toNat + 1) } := by
  simp [complete, h, hc]

theorem complete_next {s : State} (h : s.running = true) (hc : s.cursor.toNat + 1 < s.size.toNat) :
    complete s = timerProgram (burstAt s (s.cursor.toNat + 1))
      { s with cursor := BitVec.ofNat 4 (s.cursor.toNat + 1) } := by
  simp only [complete, h, Nat.not_le.mpr hc]
  rfl

/-- Everything `complete` can do: nothing, end the sequence, or program the next burst. -/
theorem complete_cases (s : State) :
    (s.running = false ∧ complete s = s) ∨
    (s.running = true ∧ s.size.toNat ≤ s.cursor.toNat + 1 ∧
      complete s = stopBody { s with cursor := BitVec.ofNat 4 (s.cursor.toNat + 1) }) ∨
    (s.running = true ∧ s.cursor.toNat + 1 < s.size.toNat ∧
      complete s = timerProgram (burstAt s (s.cursor.toNat + 1))
        { s with cursor := BitVec.ofNat 4 (s.cursor.toNat + 1) }) := by
  rcases Bool.eq_false_or_eq_true s.running with h | h
  · rcases Nat.lt_or_ge (s.cursor.toNat + 1) s.size.toNat with hc | hc
    · exact .inr (.inr ⟨h, hc, complete_next h hc⟩)
    · exact .inr (.inl ⟨h, hc, complete_last h hc⟩)
  · exact .inl ⟨h, complete_idle h⟩

end Sys2Proof.Machine
end

