-- ==== Sys2Proof/Laws/PerInstr.lean ====
section
/-! SUPPORT. Statements made once per command: the word of each command carries the opcode R56 gives it. -/

namespace Sys2Proof.Laws.OpcodeField

/-- R56: the opcode field of the command's word is the command's opcode. -/
def Statement (i : Instr) : Prop := opcodeOf (encode i) = i.opcode

theorem wrstg (idx : BitVec 4) (pulses : BitVec 8) (freq : BitVec 16) : Statement (.wrstg idx pulses freq) :=
  opcodeOf_encode _

theorem load (n : BitVec 8) : Statement (.load n) := opcodeOf_encode _

theorem start : Statement .start := opcodeOf_encode _

theorem stop : Statement .stop := opcodeOf_encode _

theorem qrun : Statement .qrun := opcodeOf_encode _

theorem qcap : Statement .qcap := opcodeOf_encode _

end Sys2Proof.Laws.OpcodeField
end

