-- ==== Sys2Proof/Laws/Step.lean ====
section
/-! SUPPORT. What a command and a step can do, each said once: a proof takes these apart and never unfolds `exec`,
`hostTurn` or `step`. -/

namespace Sys2Proof.Machine

/-! The spec's procedures as functions of the state. -/

theorem step_eq_takeTurn (s : State) : step s = takeTurn (nextTurn s) (afterTurn s) := by
  obtain ⟨⟩ := s
  rename_i turns _
  cases turns <;> rfl

theorem runSteps_zero (s : State) : runSteps 0 s = .next s := rfl

theorem runSteps_succ (n : Nat) (s : State) :
    runSteps (n + 1) s =
      match step s with
      | .next t => runSteps n t
      | .fault r => .fault r
      | .refused r => .refused r := rfl

/-- A run of `n + 1` steps that goes on is one step and a run of `n`. -/
theorem runSteps_succ_next {n : Nat} {s u : State} (h : runSteps (n + 1) s = .next u) :
    ∃ t, step s = .next t ∧ runSteps n t = .next u := by
  rw [runSteps_succ] at h
  split at h
  case h_1 t ht => exact ⟨t, ht, h⟩
  case h_2 => cases h
  case h_3 => cases h

/-- One step of any machine's run (Host/Core.lean). -/
theorem coreRun_of_step (M : Host.Core) (n : Nat) {s t : M.State} (h : M.step s = .next t) :
    M.run (n + 1) s = M.run n t := by
  simp [Host.Core.run, h]

/-- A run that goes on is the host interface's run of the same machine. -/
theorem coreRun_of_runSteps {n : Nat} {s t : State} (h : runSteps n s = .next t) :
    Host.Core.run Sys2Proof.core n s = .next t := by
  induction n generalizing s with
  | zero => exact h
  | succ n ih =>
    obtain ⟨u, hu, hr⟩ := runSteps_succ_next h
    exact (coreRun_of_step Sys2Proof.core n hu).trans (ih hr)

theorem runSteps_of_step {n : Nat} {s t : State} (h : step s = .next t) : runSteps (n + 1) s = runSteps n t := by
  rw [runSteps_succ, h]

/-- Everything a command can do to the state `s`. -/
inductive CommandEffect (s : State) : Instr → State → Prop where
  | wrstg (idx : BitVec 4) (p : BitVec 8) (f : BitVec 16) (h : idx.toNat < Config.max) :
      CommandEffect s (.wrstg idx p f) (writeStaging idx.toNat ⟨p, f⟩ (setIll false s))
  | wrstgIllegal (idx : BitVec 4) (p : BitVec 8) (f : BitVec 16) (h : Config.max ≤ idx.toNat) :
      CommandEffect s (.wrstg idx p f) (setIll true s)
  | loadRefused (n : BitVec 8) (h : s.running = true ∨ Config.max < n.toNat) :
      CommandEffect s (.load n) (setResult 0 (setIll false s))
  | loadDone (n : BitVec 8) (hr : s.running = false) (hn : n.toNat ≤ Config.max) :
      CommandEffect s (.load n) (setResult 1 (commitStaging n.toNat (setIll false s)))
  | startIgnored (h : s.size = 0 ∨ s.running = true) : CommandEffect s .start (setIll false s)
  | startBegins (hs : s.size ≠ 0) (hr : s.running = false) :
      CommandEffect s .start
        (timerProgram (burstAt s 0) { setIll false s with cursor := 0, running := true })
  | stop : CommandEffect s .stop (timerDisarm { setIll false s with running := false })
  | qrun : CommandEffect s .qrun (setResult (flagWord s.running) (setIll false s))
  | qcap : CommandEffect s .qcap (setResult 10 (setIll false s))

theorem commandEffect_of_exec {i : Instr} {s t : State} (h : exec i s = .next t) : CommandEffect s i t := by
  cases i with
  | wrstg idx p f =>
    simp only [exec, execWrstg] at h
    rcases Nat.lt_or_ge idx.toNat Config.max with hi | hi
    · rw [if_pos (by simpa [stagingIndexOk] using hi)] at h
      cases h
      exact .wrstg idx p f hi
    · rw [if_neg (by simpa [stagingIndexOk] using hi)] at h
      cases h
      exact .wrstgIllegal idx p f hi
  | load n =>
    cases h
    rcases Bool.eq_false_or_eq_true s.running with hr | hr
    · rw [loadBody_running (by exact hr)]
      exact .loadRefused n (.inl hr)
    · rcases Nat.lt_or_ge Config.max n.toNat with hn | hn
      · rw [countOperand, loadBody_long hn]
        exact .loadRefused n (.inr hn)
      · rw [countOperand, loadBody_commits (by exact hr) hn]
        exact .loadDone n hr hn
  | start =>
    cases h
    by_cases hs : s.size = 0 ∨ s.running = true
    · rw [startBody_ignored (by exact hs)]
      exact .startIgnored hs
    · obtain ⟨h0, hr⟩ := not_or.mp hs
      have hr : s.running = false := by simpa using hr
      rw [startBody_begins (by exact h0) (by exact hr)]
      exact .startBegins h0 hr
  | stop => cases h; exact .stop
  | qrun => cases h; exact .qrun
  | qcap => cases h; exact .qcap

/-- Everything a step can do to the state `s`. -/
inductive StepEffect (s : State) : State → Prop where
  | timer (ht : nextTurn s = .timer) : StepEffect s (timerTurn (afterTurn s))
  | completion (src : Nat) (ht : nextTurn s = .irq src) (hs : src = Config.ownSrc) (hp : s.tpend = true) :
      StepEffect s (bridgeStep (afterTurn s))
  | otherEntry (src : Nat) (ht : nextTurn s = .irq src) (hs : src ≠ Config.ownSrc ∨ s.tpend = false) :
      StepEffect s (afterTurn s)
  | simulated (ht : nextTurn s = .simulated) : StepEffect s (bridgeStep (afterTurn s))
  | reset (ht : nextTurn s = .reset) : StepEffect s (systemReset (afterTurn s))
  | hostIdle (ht : nextTurn s = .host) (hh : s.host = []) : StepEffect s (afterTurn s)
  | read (off : Fin 16) (n : Nat) (rest : List HostAccess) (r : PortReg) (ht : nextTurn s = .host)
      (hh : s.host = .read off n :: rest) (hr : portReg off n = some r) :
      StepEffect s
        { afterTurn s with host := rest, reads := s.reads ++ [{ off := off, value := readReg r (afterTurn s) }] }
  | readFault (off : Fin 16) (n : Nat) (rest : List HostAccess) (ht : nextTurn s = .host)
      (hh : s.host = .read off n :: rest) (hr : portReg off n = none) :
      StepEffect s (raiseFault (accessFault off n) (afterTurn s))
  | ignoredWrite (off : Fin 16) (n : Nat) (v : Word) (rest : List HostAccess) (r : PortReg) (ht : nextTurn s = .host)
      (hh : s.host = .write off n v :: rest) (hr : portReg off n = some r) (hc : r ≠ .cmd) :
      StepEffect s { afterTurn s with host := rest }
  | writeFault (off : Fin 16) (n : Nat) (v : Word) (rest : List HostAccess) (ht : nextTurn s = .host)
      (hh : s.host = .write off n v :: rest) (hr : portReg off n = none) :
      StepEffect s (raiseFault (accessFault off n) { afterTurn s with host := rest })
  | illegalWord (off : Fin 16) (n : Nat) (v : Word) (rest : List HostAccess) (e : DecodeError)
      (ht : nextTurn s = .host) (hh : s.host = .write off n v :: rest) (hr : portReg off n = some .cmd)
      (hd : decode v = .error e) : StepEffect s (setIll true { afterTurn s with host := rest })
  | command (off : Fin 16) (n : Nat) (v : Word) (rest : List HostAccess) (i : Instr) (t : State)
      (ht : nextTurn s = .host) (hh : s.host = .write off n v :: rest) (hr : portReg off n = some .cmd)
      (hd : decode v = .ok i) (he : CommandEffect { afterTurn s with host := rest } i t) : StepEffect s t

theorem stepEffect_of_step {s t : State} (h : step s = .next t) : StepEffect s t := by
  rw [step_eq_takeTurn] at h
  cases ht : nextTurn s with
  | timer => rw [ht] at h; cases h; exact .timer ht
  | simulated => rw [ht] at h; cases h; exact .simulated ht
  | reset => rw [ht] at h; cases h; exact .reset ht
  | irq src =>
    rw [ht] at h
    cases h
    unfold irqEntry
    split
    case isTrue hc => exact .completion src ht hc.1 hc.2
    case isFalse hc =>
      refine .otherEntry src ht ?_
      by_cases hs : src = Config.ownSrc
      · exact .inr (by simpa [hs] using hc)
      · exact .inl hs
  | host =>
    rw [ht] at h
    simp only [takeTurn, hostTurn, afterTurn_host] at h
    split at h
    case h_1 hh => cases h; exact .hostIdle ht hh
    case h_2 off n rest hh =>
      simp only [hostRead] at h
      split at h
      case h_1 r hr => cases h; exact .read off n rest r ht hh hr
      case h_2 hr => cases h; exact .readFault off n rest ht hh hr
    case h_3 off n v rest hh =>
      simp only [hostWrite] at h
      split at h
      case h_2 hr => cases h; exact .writeFault off n v rest ht hh hr
      case h_1 r hr =>
        cases r with
        | status => cases h; exact .ignoredWrite off n v rest .status ht hh hr (by decide)
        | result => cases h; exact .ignoredWrite off n v rest .result ht hh hr (by decide)
        | timer => cases h; exact .ignoredWrite off n v rest .timer ht hh hr (by decide)
        | cmd =>
          simp only [writeReg, execWord] at h
          split at h
          case h_1 i hd => exact .command off n v rest i t ht hh hr hd (commandEffect_of_exec h)
          case h_2 e hd => cases h; exact .illegalWord off n v rest e ht hh hr hd

/-! The kind of a step (Safety.lean), from its turn. -/

theorem stepKind_timer {s : State} (h : nextTurn s = .timer) : stepKind s = .timer := by simp [stepKind, h]

theorem stepKind_completion {s : State} {src : Nat} (h : nextTurn s = .irq src) (hs : src = Config.ownSrc)
    (hp : s.tpend = true) : stepKind s = .completion := by simp [stepKind, h, hs, hp]

theorem stepKind_otherEntry {s : State} {src : Nat} (h : nextTurn s = .irq src)
    (hs : src ≠ Config.ownSrc ∨ s.tpend = false) : stepKind s = .otherEntry := by
  rcases hs with hs | hs <;> simp [stepKind, h, hs]

theorem stepKind_simulated {s : State} (h : nextTurn s = .simulated) : stepKind s = .completion := by
  simp [stepKind, h]

theorem stepKind_reset {s : State} (h : nextTurn s = .reset) : stepKind s = .reset := by simp [stepKind, h]

theorem stepKind_host {s : State} (h : nextTurn s = .host) : stepKind s = hostKind s.host := by simp [stepKind, h]

theorem hostKind_read (off : Fin 16) (n : Nat) (rest : List HostAccess) :
    hostKind (.read off n :: rest) = .hostOther := rfl

theorem hostKind_fault {off : Fin 16} {n : Nat} {v : Word} {rest : List HostAccess} (h : portReg off n = none) :
    hostKind (.write off n v :: rest) = .hostOther := by simp [hostKind, h]

theorem hostKind_ignored {off : Fin 16} {n : Nat} {v : Word} {rest : List HostAccess} {r : PortReg}
    (h : portReg off n = some r) (hc : r ≠ .cmd) : hostKind (.write off n v :: rest) = .hostOther := by
  cases r <;> simp_all [hostKind]

theorem hostKind_illegal {off : Fin 16} {n : Nat} {v : Word} {rest : List HostAccess} {e : DecodeError}
    (h : portReg off n = some .cmd) (hd : decode v = .error e) :
    hostKind (.write off n v :: rest) = .illegalWord := by simp [hostKind, h, hd]

theorem hostKind_command {off : Fin 16} {n : Nat} {v : Word} {rest : List HostAccess} {i : Instr}
    (h : portReg off n = some .cmd) (hd : decode v = .ok i) :
    hostKind (.write off n v :: rest) = .command i := by simp [hostKind, h, hd]

end Sys2Proof.Machine
end

