-- ==== Sys2Proof/Laws/Run.lean ====
section
/-! SUPPORT. Frames of the shared steps, what a step does to the environment's lists, and induction over runs. -/

namespace Sys2Proof.Machine

/-- What `Complete()` leaves unchanged (R41, R100). -/
theorem complete_frame (s : State) :
    (complete s).buf = s.buf ∧ (complete s).size = s.size ∧ (complete s).stg = s.stg ∧
    (complete s).result = s.result ∧ (complete s).ill = s.ill ∧ (complete s).fault = s.fault ∧
    (complete s).host = s.host ∧ (complete s).turns = s.turns ∧ (complete s).reads = s.reads := by
  rcases complete_cases s with ⟨_, h⟩ | ⟨_, _, h⟩ | ⟨_, _, h⟩ <;> rw [h] <;> simp [stopBody]

/-- What a bridge step leaves unchanged. -/
theorem bridgeStep_frame (s : State) :
    (bridgeStep s).buf = s.buf ∧ (bridgeStep s).size = s.size ∧ (bridgeStep s).stg = s.stg ∧
    (bridgeStep s).result = s.result ∧ (bridgeStep s).ill = s.ill ∧ (bridgeStep s).fault = s.fault ∧
    (bridgeStep s).host = s.host ∧ (bridgeStep s).turns = s.turns ∧ (bridgeStep s).reads = s.reads :=
  complete_frame { s with tpend := false }

/-- What every command leaves unchanged. -/
theorem commandEffect_frame {s t : State} {i : Instr} (h : CommandEffect s i t) :
    t.fault = s.fault ∧ t.host = s.host ∧ t.turns = s.turns ∧ t.reads = s.reads := by
  cases h <;> exact ⟨rfl, rfl, rfl, rfl⟩

/-- A step takes one turn, and takes at most the first of the host's accesses. -/
theorem stepEffect_environment {s t : State} (h : StepEffect s t) :
    t.turns = s.turns.tail ∧ (t.host = s.host ∨ ∃ a, s.host = a :: t.host) := by
  cases h with
  | timer => unfold timerTurn; split <;> exact ⟨rfl, .inl rfl⟩
  | completion => simp [bridgeStep_frame]
  | simulated => simp [bridgeStep_frame]
  | otherEntry => exact ⟨rfl, .inl rfl⟩
  | reset => exact ⟨rfl, .inl rfl⟩
  | hostIdle => exact ⟨rfl, .inl rfl⟩
  | readFault => rw [raiseFault_frame]; exact ⟨rfl, .inl rfl⟩
  | read off n rest r ht hh hr => exact ⟨rfl, .inr ⟨_, hh⟩⟩
  | ignoredWrite off n v rest r ht hh hr hc => exact ⟨rfl, .inr ⟨_, hh⟩⟩
  | writeFault off n v rest ht hh hr => rw [raiseFault_frame]; exact ⟨rfl, .inr ⟨_, hh⟩⟩
  | illegalWord off n v rest e ht hh hr hd => exact ⟨rfl, .inr ⟨_, hh⟩⟩
  | command off n v rest i _ ht hh hr hd he =>
    obtain ⟨_, h1, h2, _⟩ := commandEffect_frame he
    exact ⟨h2, .inr ⟨_, by rw [h1]; exact hh⟩⟩

theorem noCommand_step {bad : Instr → Bool} {s t : State} (h : StepEffect s t) (hn : NoCommand bad s.host) :
    NoCommand bad t.host := by
  rcases (stepEffect_environment h).2 with h | ⟨a, h⟩
  · rwa [h]
  · exact fun off n v hm => hn off n v (by rw [h]; exact List.mem_cons_of_mem _ hm)

theorem notMem_turns_step {x : Turn} {s t : State} (h : StepEffect s t) (hn : x ∉ s.turns) : x ∉ t.turns := by
  rw [(stepEffect_environment h).1]
  exact fun hm => hn (List.mem_of_mem_tail hm)

/-- A turn that is not to come is not the next one, the host's apart. -/
theorem nextTurn_ne {x : Turn} {s : State} (hx : x ≠ .host) (h : x ∉ s.turns) : nextTurn s ≠ x := by
  unfold nextTurn
  split
  case h_1 => exact hx.symm
  case h_2 t ts hh =>
    rintro rfl
    exact h (by rw [hh]; exact List.mem_cons_self)

theorem noCommand_head {bad : Instr → Bool} {s : State} {off : Fin 16} {n : Nat} {v : Word} {rest : List HostAccess}
    {i : Instr} (hn : NoCommand bad s.host) (hh : s.host = .write off n v :: rest) (hr : portReg off n = some .cmd)
    (hd : decode v = .ok i) : bad i = false :=
  hn off n v (by rw [hh]; exact List.mem_cons_self) hr i hd

/-- What every step keeps, every run keeps. -/
theorem run_induction {P : State → Prop} (hp : ∀ s t, P s → StepEffect s t → P t) :
    ∀ n s t, P s → runSteps n s = .next t → P t := by
  intro n
  induction n with
  | zero =>
    intro s t h hr
    cases hr
    exact h
  | succ n ih =>
    intro s u h hr
    obtain ⟨t, hs, ht⟩ := runSteps_succ_next hr
    exact ih t u (hp s t h (stepEffect_of_step hs)) ht

end Sys2Proof.Machine
end

