-- ==== Sys2Proof/Laws/Timer.lean ====
section
/-! SUPPORT. The arithmetic of the timer register programmer as numbers. -/

namespace Sys2Proof.Machine

theorem clampF_bounds (f : BitVec 16) : 100 ≤ clampF f ∧ clampF f ≤ 20000 := by
  unfold clampF
  split
  · exact ⟨by decide, by decide⟩
  · split
    · exact ⟨by decide, by decide⟩
    · simp only [Config.fMin, Config.fMax] at *
      omega

theorem reload_quotient_bounds (f : BitVec 16) :
    25 ≤ 1000000 / (2 * clampF f) ∧ 1000000 / (2 * clampF f) ≤ 5000 := by
  have := clampF_bounds f
  constructor
  · rw [Nat.le_div_iff_mul_le (by omega)]
    omega
  · exact Nat.div_le_of_le_mul (by omega)

/-- The 16 bits of `TARR` lose nothing of the reload value. -/
theorem reload_toNat (f : BitVec 16) : (reload f).toNat = 1000000 / (2 * clampF f) - 1 := by
  have := reload_quotient_bounds f
  simp only [reload, reloadNat, Config.tickHz, BitVec.toNat_ofNat]
  omega

end Sys2Proof.Machine
end

