-- ==== Sys2Proof/Tests/Slice0.lean ====
section
/-! SUPPORT. Tests against the vectors of spec/95_test_vectors.md, each about one step, and for every statement with
hypotheses a named witness that meets them. -/

namespace Sys2Proof.Tests

open Sys2Proof Sys2Proof.Machine

/-! Small states. -/

/-- The three bursts of the source's example (R103), then zeros. -/
def three : Vector Burst Config.max :=
  Vector.ofFn fun i => if i.val = 0 then ⟨1, 1000⟩ else if i.val = 1 then ⟨2, 2000⟩ else if i.val = 2 then ⟨1, 500⟩
    else Burst.zero

/-- Idle, the three bursts staged and loaded. -/
def idle3 : State := { State.reset with buf := three, stg := three, size := 3, result := 1 }

/-- Running at cursor `c` of the three bursts, the request bit as given. -/
def running3 (c : BitVec 4) (pend : Bool) : State :=
  { idle3 with cursor := c, running := true, tarr := 499, trcr := 0, tie := true, tpend := pend, tlog := [.prog 499 0] }

/-- What a step or a command answers, as a state; any state where it stops. -/
def after : Host.Outcome State Fault Refusal → Option State
  | .next t => some t
  | .fault _ => none
  | .refused _ => none

/-! WellFormed refuses an ill-formed term of each check (V-E6, V-E7), and accepts the last legal index (V-E5). -/

theorem test_wf_index_ten : (Instr.wrstg 10 1 1000).wf = false := by decide
theorem test_wf_index_fifteen : (Instr.wrstg 15 0 0).wf = false := by decide
theorem test_wf_index_nine : (Instr.wrstg 9 255 65535).wf = true := by decide

/-! Decoding: words written out from the format tables R57 to R59 (section 2.1 of the vectors). -/

/-- `0001 0010 00000001 0000000111110100`, V-E3. -/
theorem test_decode_wrstg : decode 0b00010010000000010000000111110100 = .ok (.wrstg 2 1 500) := by decide
/-- `0010`, 20 zeros, `11111111`, V-E11. -/
theorem test_decode_load : decode 0b00100000000000000000000011111111 = .ok (.load 255) := by decide
theorem test_decode_start : decode 0b00110000000000000000000000000000 = .ok .start := by decide
theorem test_decode_stop : decode 0b01000000000000000000000000000000 = .ok .stop := by decide
theorem test_decode_qrun : decode 0b01010000000000000000000000000000 = .ok .qrun := by decide
theorem test_decode_qcap : decode 0b01100000000000000000000000000000 = .ok .qcap := by decide
theorem test_reject_opcode_zero : decode 0x0FFFFFFF = .error .reservedOpcode := by decide
theorem test_reject_opcode_seven : decode 0x70000000 = .error .reservedOpcode := by decide
theorem test_reject_index : decode 0x1F000000 = .error .stagingIndex := by decide
theorem test_reject_count_bit27 : decode 0x28000003 = .error .countReserved := by decide
theorem test_reject_start_bit0 : decode 0x30000001 = .error .operandReserved := by decide
theorem test_reject_stop_bit27 : decode 0x48000000 = .error .operandReserved := by decide

/-! Encoding: the words of the vectors' assembler lines. -/

theorem test_encode_wrstg : encode (.wrstg 3 4 1000) = 0x130403E8 := by decide
theorem test_encode_load : encode (.load 10) = 0x2000000A := by decide
theorem test_encode_operandless :
    encode .start = 0x30000000 ∧ encode .stop = 0x40000000 ∧ encode .qrun = 0x50000000 ∧ encode .qcap = 0x60000000 := by
  decide
theorem test_bytes : bytesOfWord 0x100103E8 = [0xE8, 0x03, 0x01, 0x10] := by decide
theorem test_decode_table : decodeTableWord 32 0x100103E8 = some (.wrstg 0 1 1000) := by decide
theorem test_decode_short : decodeBytes [0x00, 0x00, 0x30] = none := by decide

/-! The commands. -/

/-- V-L2. -/
theorem test_wrstg_later_write_wins :
    (after (exec (.wrstg 0 4 1000) idle3)).map (·.stg[0]) = some ⟨4, 1000⟩ := by decide
/-- V-L5. -/
theorem test_wrstg_illegal_index :
    (after (exec (.wrstg 10 1 1000) idle3)).map (fun t => (t.ill, t.stg)) = some (true, three) := by decide
/-- V-L12, with the three bursts: a shorter load keeps the entries above. -/
theorem test_load_two :
    (after (exec (.load 2) { idle3 with cursor := 3, result := 0, stg := State.reset.stg })).map
      (fun t => (t.size, t.cursor, t.result, t.buf[1], t.buf[2])) = some (2, 0, 1, ⟨0, 0⟩, ⟨1, 500⟩) := by decide
/-- V-L11. -/
theorem test_load_while_running :
    (after (exec (.load 1) (running3 2 false))).map (fun t => (t.size, t.cursor, t.result, t.running)) =
      some (3, 2, 0, true) := by decide
/-- V-P2. -/
theorem test_start :
    (after (exec .start idle3)).map (fun t => (t.running, t.cursor, timerWord t, t.tlog)) =
      some (true, 0, 0x010001F3, [.prog 499 0]) := by decide
/-- V-P3. -/
theorem test_start_running : after (exec .start (running3 2 false)) = some (running3 2 false) := by decide
/-- V-P8. -/
theorem test_stop :
    (after (exec .stop (running3 1 true))).map
      (fun t => (t.running, t.cursor, timerWord t, t.tlog)) =
      some (false, 1, 0x000001F3, [.prog 499 0, .disarm]) := by decide
/-- V-P7. -/
theorem test_stop_at_reset : (after (exec .stop State.reset)).map (·.tlog) = some [.disarm] := by decide
/-- V-P10 and V-P11. -/
theorem test_qrun :
    (after (exec .qrun (running3 0 false))).map (·.result) = some 1 ∧
    (after (exec .qrun idle3)).map (·.result) = some 0 := by decide
/-- V-P12. -/
theorem test_qcap : (after (exec .qcap idle3)).map (·.result) = some 0x0000000A := by decide
/-- Section 2.1, effect of an illegal word: STATUS from 0x131 to 0x133. -/
theorem test_illegal_word :
    (after (execWord 0x70000000 (running3 1 false))).map statusWord = some 0x00000133 := by decide

/-! The timer register programmer (section 2.4). -/

theorem test_reload_exact : reload 1000 = 499 ∧ reload 50 = 4999 ∧ reload 50000 = 24 := by decide
theorem test_reload_truncates : reload 333 = 1500 ∧ reload 3000 = 165 ∧ reload 7000 = 70 ∧ reload 19999 = 24 := by decide
theorem test_repeat : repeatCount 0 = 255 ∧ repeatCount 1 = 0 ∧ repeatCount 128 = 127 ∧ repeatCount 255 = 254 := by
  decide
/-- V-T4 and V-T8. -/
theorem test_program_keeps_pending :
    timerWord (timerProgram ⟨0, 0⟩ (running3 0 true)) = 0x03FF1387 := by decide
/-- V-T7. -/
theorem test_disarm :
    timerWord (timerDisarm { running3 0 true with tarr := 249, trcr := 1 }) = 0x000100F9 := by decide

/-! The completion reaction and the bridge (section 2.5). -/

/-- V-C1. -/
theorem test_completion_next :
    ((bridgeStep (running3 0 true)).cursor, (bridgeStep (running3 0 true)).running, (bridgeStep (running3 0 true)).tlog) =
      (1, true, [.prog 499 0, .prog 249 1]) := by decide
/-- V-C2. -/
theorem test_completion_last :
    ((bridgeStep (running3 2 true)).cursor, (bridgeStep (running3 2 true)).running, (bridgeStep (running3 2 true)).tie,
      (bridgeStep (running3 2 true)).tlog) = (3, false, false, [.prog 499 0, .disarm]) := by decide
/-- V-C4. -/
theorem test_simulated_while_idle : simulatedCompletion idle3 = idle3 := by decide
/-- V-C5 and V-C7. -/
theorem test_timer : timerTurn (running3 0 false) = running3 0 true ∧ timerTurn idle3 = idle3 := by decide
/-- V-C9, the second half: after `STOP` the entry is spurious. -/
theorem test_entry_after_stop (t : State) (h : exec .stop (running3 0 true) = .next t) :
    irqEntry Config.ownSrc t = t := by
  cases h
  simp [irqEntry, stopBody]

/-! The host port (section 2.6). -/

/-- V-M4. -/
theorem test_status :
    statusWord { State.reset with ill := true, size := 10, cursor := 10 } = 0x00000AA2 := by decide
/-- V-M6. -/
theorem test_timer_word : timerWord { running3 0 true with tarr := 999 } = 0x030003E7 := by decide
/-- V-M3, the value the read returns. -/
theorem test_read_status :
    (after (step { running3 2 false with host := [.read 0x4 4] })).map (·.reads) = some [⟨0x4, 0x00000231⟩] := by decide
/-- V-M7. -/
theorem test_write_status :
    after (step { idle3 with host := [.write 0x4 4 0xFFFFFFFF] }) = some idle3 := by decide
/-- V-M10: no command runs. -/
theorem test_half_word_write :
    after (step { idle3 with host := [.write 0x0 2 0x3000] }) =
      some { idle3 with fault := [.busAccess (Config.base + 0) 2] } := by rfl
/-- V-M11: the read stays. -/
theorem test_misaligned_read :
    after (step { idle3 with host := [.read 0x6 4] }) =
      some { idle3 with host := [.read 0x6 4], fault := [.busAccess (Config.base + 6) 4] } := by rfl
/-- V-E20 reached through the word handed to the machine at reset. -/
theorem test_fetch_word :
    (after (step (State.reset.withFetchWord 32 0x60000000))).map (fun t => (t.result, t.host, t.turns)) =
      some (10, [], []) := by decide

/-! The assembler (R66, R67). -/

/-- Lines 1 to 5 of program P1 are this expansion. -/
theorem test_play :
    assembleText "PLAY (1, 1000), (2, 2000), (1, 500) ; P1".toList =
      some [cmdWrite 0x100103E8, cmdWrite 0x110207D0, cmdWrite 0x120101F4, cmdWrite 0x20000003, cmdWrite 0x30000000] := by
  decide
theorem test_text :
    assembleText "RD STATUS\n; ~TIMER\n.word 0x1A0103E8".toList =
      some [.access (.read 0x4 4), .turn .timer, cmdWrite 0x1A0103E8] := by decide
theorem test_text_refused : assembleText "WRSTG 16, 1, 1".toList = none := by decide

/-! Invariant states. -/

theorem idle3_inv : Inv idle3 := by
  constructor <;> simp [idle3, State.reset, lastProg]
  decide

theorem running3_inv (c : BitVec 4) (pend : Bool) (h : c.toNat < 3) : Inv (running3 c pend) := by
  constructor <;> simp [running3, idle3, State.reset, lastProg]
  · decide
  · omega
  · exact h

/-! Witnesses, one for each statement with hypotheses; where a statement has several clauses, one for each, at a
boundary of its range. -/

theorem witness_DecodeEncodeRoundTrip : (Instr.wrstg 9 255 65535).wf = true := by decide

theorem witness_EncodeOfDecodedWord : decode 0x19FFFFFF = .ok (.wrstg 9 255 65535) := by decide

/-- One word of each case, at the edges of the opcode's and the index's range. -/
theorem witness_IllegalWordsAreExactlyTheFourCases :
    (0x0FFFFFFF#32).toNat / 2 ^ 28 = 0 ∧ (0x70000000#32).toNat / 2 ^ 28 = 7 ∧
    (0x1A000000#32).toNat / 2 ^ 24 % 16 = 10 ∧ (0x20000100#32).toNat / 2 ^ 8 % 2 ^ 20 = 1 ∧
    (0x6FFFFFFF#32).toNat / 2 ^ 28 = 6 ∧ decode 0x19000000 = .ok (.wrstg 9 0 0) := by decide

theorem witness_DecodedFieldsAreTheFormatTables :
    (9#4).toNat < 10 ∧
      (0x19FFFFFF#32).toNat =
        0x1 * 2 ^ 28 + (9#4).toNat * 2 ^ 24 + (255#8).toNat * 2 ^ 16 + (65535#16).toNat := by decide

theorem witness_WordBytesAreLittleEndian : portReg 0xC 4 = some .timer ∧ (15 : Fin 16).val = (0xC : Fin 16).val + 3 := by
  decide

theorem witness_BytesOfCommandDecode : (Instr.load 255).wf = true := by decide

/-- The last operands that fit, and the first that do not. -/
theorem witness_AssemblerEncodesByTheTable :
    (15 ≤ 15 ∧ 255 ≤ 255 ∧ 65535 ≤ 65535) ∧ (15 < 16 ∨ 255 < 0 ∨ 65535 < 0) ∧ 255 ≤ 255 ∧ 255 < 256 := by decide

/-- `PLAY` of ten bursts at the edge of their fields from the reset state, and of eleven. -/
theorem witness_PlayLoadsAndStarts :
    (List.replicate 10 (255, 65535)).length ≤ Config.max ∧
    (∀ b ∈ List.replicate 10 (255, 65535), b.1 ≤ 255 ∧ b.2 ≤ 65535) ∧ State.reset.running = false ∧
    Config.max < (List.replicate 11 (1, 1)).length := by decide

/-- The words of the last legal index and of the first illegal one. -/
theorem witness_WrstgWritesOneStagingEntry :
    ((0x190103E8#32).toNat =
        0x1 * 2 ^ 28 + (9#4).toNat * 2 ^ 24 + (1#8).toNat * 2 ^ 16 + (1000#16).toNat ∧ (9#4).toNat < Config.max) ∧
    (0x1A0103E8#32).toNat =
        0x1 * 2 ^ 28 + (10#4).toNat * 2 ^ 24 + (1#8).toNat * 2 ^ 16 + (1000#16).toNat ∧
      Config.max ≤ (10#4).toNat := by decide

/-- The three outcomes of `LOAD`: running, one burst too many, the full buffer. -/
theorem witness_LoadCommitsOrRefuses :
    (running3 0 false).running = true ∧ (idle3.running = false ∧ Config.max < (11#8).toNat) ∧
    (idle3.running = false ∧ (10#8).toNat ≤ Config.max) := by decide

theorem witness_FailedLoadChangesOnlyResultAndIll :
    (∃ t, exec (.load 11) idle3 = .next t ∧ t.result = 0) ∧ Config.max < (11#8).toNat :=
  ⟨⟨_, rfl, by decide⟩, by decide⟩

/-- `START` with nothing loaded, while running, and idle with three bursts. -/
theorem witness_StartBeginsAtBurstZero :
    State.reset.size = 0 ∧ (running3 0 false).running = true ∧ (idle3.size ≠ 0 ∧ idle3.running = false) := by decide

theorem witness_StopTwiceAddsOnlyOneDisarm : ∃ t, exec .stop (running3 1 true) = .next t := ⟨_, rfl⟩

theorem witness_StartAndLoadAreIdempotent :
    (∃ t, exec .start idle3 = .next t) ∧ ∃ t, exec (.load 10) idle3 = .next t := ⟨⟨_, rfl⟩, _, rfl⟩

theorem witness_ExecWritesIll :
    (∃ e, decode 0x1A0103E8 = .error e) ∧ ∃ i, decode 0x19FFFFFF = .ok i := ⟨⟨_, rfl⟩, _, rfl⟩

/-- The last frequency below, the bounds, and the first above. -/
theorem witness_ClampIsToTheBounds :
    (99#16).toNat < 100 ∧ (100 ≤ (100#16).toNat ∧ (100#16).toNat ≤ 20000) ∧
    (100 ≤ (20000#16).toNat ∧ (20000#16).toNat ≤ 20000) ∧ 20000 < (20001#16).toNat := by decide

theorem witness_ReloadIsTruncatedQuotientInRange : clampF 333 ≤ clampF 3000 := by decide

theorem witness_RepetitionCountIsPulsesLessOne : 1 ≤ (1#8).toNat := by decide

theorem witness_CompletionProgramsNextBurst :
    Inv (running3 1 true) ∧ (running3 1 true).running = true ∧
    (running3 1 true).cursor.toNat + 1 < (running3 1 true).size.toNat :=
  ⟨running3_inv 1 true (by decide), rfl, by decide⟩

theorem witness_LastCompletionStops :
    Inv (running3 2 true) ∧ (running3 2 true).running = true ∧
    (running3 2 true).size.toNat ≤ (running3 2 true).cursor.toNat + 1 :=
  ⟨running3_inv 2 true (by decide), rfl, by decide⟩

theorem witness_IdleCompletionChangesNothing : idle3.running = false := by decide

/-- Armed, masked, and armed with a request pending. -/
theorem witness_TimerRaisesOnlyWhileArmed :
    ({ running3 0 false with turns := [.timer] }.turns = [.timer] ∧ (running3 0 false).tie = true) ∧
    ({ idle3 with turns := [.timer] }.turns = [.timer] ∧ idle3.tie = false) ∧
    ((running3 0 true).tie = true ∧ (running3 0 true).tpend = true) := by decide

theorem witness_BridgeAcknowledgesAndCompletes :
    { running3 0 true with turns := [.irq Config.ownSrc] }.turns = [.irq Config.ownSrc] ∧
    (running3 0 true).tpend = true := ⟨rfl, rfl⟩

/-- A foreign entry, and a spurious one. -/
theorem witness_ForeignAndSpuriousEntriesChangeNothing :
    Config.ownSrc + 1 ≠ Config.ownSrc ∧ (running3 0 false).tpend = false := ⟨by simp, rfl⟩

/-- A read of each register. -/
theorem witness_LegalReadReturnsValueOnly :
    nextTurn { idle3 with host := [.read 0x4 4] } = .host ∧ portReg 0x0 4 = some .cmd ∧ portReg 0x4 4 = some .status ∧
    portReg 0x8 4 = some .result ∧ portReg 0xC 4 = some .timer := by decide

theorem witness_ReadOnlyRegistersIgnoreWrites :
    nextTurn { idle3 with host := [.write 0xC 4 0] } = .host ∧ { idle3 with host := [.write 0xC 4 0] }.host = [.write 0xC 4 0] ∧
    ((0xC : Fin 16) = 0x4 ∨ (0xC : Fin 16) = 0x8 ∨ (0xC : Fin 16) = 0xC) := by decide

/-- A write of two bytes, and a misaligned read of four. -/
theorem witness_OtherAccessesRaiseBusFault :
    (nextTurn { idle3 with host := [.write 0x0 2 0x3000] } = .host ∧ portReg 0x0 2 = none) ∧
    (nextTurn { idle3 with host := [.read 0x6 4] } = .host ∧ portReg 0x6 4 = none) := by decide

theorem witness_FaultedReadNeverReturns :
    { idle3 with host := [.read 0x6 4, .read 0x4 4] }.host = [.read 0x6 4, .read 0x4 4] ∧ portReg 0x6 4 = none ∧
    ∃ t, runSteps 2 { idle3 with host := [.read 0x6 4, .read 0x4 4], turns := [.host, .simulated] } = .next t :=
  ⟨rfl, rfl, _, rfl⟩

theorem witness_FaultIsNeverCleared :
    ∃ t, step { idle3 with host := [.write 0x0 2 0], fault := [.busAccess 5 1] } = .next t ∧
      t.fault ≠ { idle3 with fault := [.busAccess 5 1] }.fault := by
  refine ⟨_, rfl, ?_⟩
  show (raiseFault (accessFault 0x0 2) { idle3 with fault := [.busAccess 5 1] }).fault ≠ _
  intro h
  have := (mem_raiseFault (accessFault 0x0 2) (accessFault 0x0 2) { idle3 with fault := [.busAccess 5 1] }).mpr (.inr rfl)
  rw [h] at this
  simp [accessFault] at this

theorem witness_StepRunsTheDecodedCommand :
    nextTurn { idle3 with host := [.write 0x0 4 0x30000000] } = .host ∧
    { idle3 with host := [.write 0x0 4 0x30000000] }.host = [.write 0x0 4 0x30000000] ∧
    decode 0x30000000 = .ok .start := by decide

theorem witness_ResetSetsEveryField :
    { running3 1 true with turns := [.reset, .host] }.turns = .reset :: [.host] := rfl

theorem witness_EveryStepKeepsInvariant : Inv (running3 2 true) ∧ ∃ t, step (running3 2 true) = .next t :=
  ⟨running3_inv 2 true (by decide), _, rfl⟩

/-- A step that changes each group of fields: a `LOAD` that succeeds, a `START`, a `WRSTG`, an illegal word, a raise. -/
theorem witness_OnlyNamedStepsWriteEachField :
    (∃ t, step (idle3.withFetchWord 32 0x20000002) = .next t ∧ t.size ≠ idle3.size) ∧
    (∃ t, step (idle3.withFetchWord 32 0x30000000) = .next t ∧ t.running ≠ idle3.running ∧ t.tarr ≠ idle3.tarr) ∧
    (∃ t, step (idle3.withFetchWord 32 0x100A0064) = .next t ∧ t.stg ≠ idle3.stg) ∧
    (∃ t, step (idle3.withFetchWord 32 0) = .next t ∧ t.ill ≠ idle3.ill) ∧
    (∃ t, step (idle3.withFetchWord 32 0x60000000) = .next t ∧ t.result ≠ idle3.result) ∧
    (∃ t, step { running3 0 false with turns := [.timer] } = .next t ∧ t.tpend ≠ (running3 0 false).tpend) :=
  ⟨⟨_, rfl, by decide⟩, ⟨_, rfl, by decide, by decide⟩, ⟨_, rfl, by decide⟩, ⟨_, rfl, by decide⟩, ⟨_, rfl, by decide⟩,
    ⟨_, rfl, by decide⟩⟩

theorem witness_TransitionTable :
    Inv (running3 2 true) ∧ ∃ t, step { running3 2 true with turns := [.simulated] } = .next t :=
  ⟨running3_inv 2 true (by decide), _, rfl⟩

theorem witness_BufferFixedWhileRunning :
    (∃ t, step ((running3 1 false).withFetchWord 32 0x20000001) = .next t) ∧ (running3 1 false).running = true ∧
    nextTurn ((running3 1 false).withFetchWord 32 0x20000001) ≠ .reset := ⟨⟨_, rfl⟩, rfl, by decide⟩

/-- The host's list of one `LOAD` holds no `WRSTG`. -/
theorem noCommand_load {bad : Instr → Bool} (h : bad (.load 3) = false) :
    NoCommand bad [.write 0x0 4 0x20000003] := by
  intro off n v hm _ i hd
  simp only [List.mem_singleton, HostAccess.write.injEq] at hm
  obtain ⟨_, _, rfl⟩ := hm
  have : decode 0x20000003 = .ok (.load 3) := by decide
  rw [this] at hd
  cases hd
  exact h

theorem noCommand_read {bad : Instr → Bool} (off : Fin 16) (n : Nat) : NoCommand bad [.read off n] := by
  intro off' n' v hm
  simp at hm

theorem witness_StagingSurvivesEverythingElse :
    NoCommand (fun i => match i with
      | .wrstg _ _ _ => true
      | .load _ | .start | .stop | .qrun | .qcap => false) [.write 0x0 4 0x20000003] ∧
    Turn.reset ∉ [Turn.host, .simulated] ∧
    ∃ t, runSteps 2 { idle3 with host := [.write 0x0 4 0x20000003], turns := [.host, .simulated] } = .next t :=
  ⟨noCommand_load rfl, by decide, _, rfl⟩

theorem witness_StagingIsReadOnlyByLoad :
    (∃ t, step { running3 0 true with turns := [.simulated] } = .next t) ∧
    ∀ n, stepKind { running3 0 true with turns := [.simulated] } = .command (.load n) →
      (running3 0 true).running = true ∨ Config.max < n.toNat := ⟨⟨_, rfl⟩, fun _ _ => .inl rfl⟩

/-- Idle with a read pending and three simulated completions to come. -/
def idle3Completing : State := { idle3 with host := [.read 0x4 4], turns := [.host, .simulated, .simulated, .simulated] }

theorem idle3Completing_inv : Inv idle3Completing := { idle3_inv with }

theorem witness_PlaybackInStoredOrder :
    Inv idle3Completing ∧ idle3Completing.running = false ∧ 0 < idle3Completing.size.toNat ∧
    ∃ t u, exec .start idle3Completing = .next t ∧ Undisturbed t ∧ runSteps 3 t = .next u ∧ completionsTaken 3 t = 2 :=
  ⟨idle3Completing_inv, rfl, by decide, _, _, rfl, ⟨noCommand_read 0x4 4, by decide⟩, rfl, by decide⟩

theorem witness_RestartReplaysFromZero :
    Inv idle3Completing ∧ idle3Completing.running = false ∧ 0 < idle3Completing.size.toNat ∧
    ∃ t u, exec .start idle3Completing = .next t ∧ Undisturbed t ∧ runSteps 4 t = .next u ∧
      completionsTaken 4 t = idle3Completing.size.toNat ∧
      NoCommand (fun i => match i with
        | .load _ => true
        | .wrstg _ _ _ | .start | .stop | .qrun | .qcap => false) t.host :=
  ⟨idle3Completing_inv, rfl, by decide, _, _, rfl, ⟨noCommand_read 0x4 4, by decide⟩, rfl, by decide,
    noCommand_read 0x4 4⟩

theorem witness_NothingAdvancesAfterStop :
    ∃ t u, exec .stop { running3 1 true with host := [.read 0x4 4], turns := [.timer, .simulated, .host] } = .next t ∧
      NotRestarted t ∧ runSteps 3 t = .next u ∧
      NoCommand (fun i => match i with
        | .load _ => true
        | .wrstg _ _ _ | .start | .stop | .qrun | .qcap => false) t.host :=
  ⟨_, _, rfl, ⟨noCommand_read 0x4 4, by decide⟩, rfl, noCommand_read 0x4 4⟩

/-- Running at cursor 1 of three with a read pending; the turns raise one completion twice and serve it, then
simulate one. -/
def running3Served : State :=
  { running3 1 false with host := [.read 0x4 4], turns := [.timer, .host, .timer, .irq Config.ownSrc, .simulated] }

theorem witness_PlaybackEndsIfTimerLive :
    Inv running3Served ∧ running3Served.running = true ∧ NotStopped running3Served ∧
    TimerLive (running3Served.size.toNat - running3Served.cursor.toNat) running3Served := by
  refine ⟨{ running3_inv 1 false (by decide) with }, rfl, ⟨noCommand_read 0x4 4, by simp [running3Served]⟩, ?_⟩
  simp [TimerLive, running3Served, running3, idle3, completionsServed]

theorem witness_MissedCompletionStalls :
    (running3 1 false).running = true ∧
    NotStopped { running3 1 false with host := [.read 0x4 4], turns := [.host, .irq Config.ownSrc] } ∧
    NeverRaised { running3 1 false with host := [.read 0x4 4], turns := [.host, .irq Config.ownSrc] } ∧
    ∃ t, runSteps 1 { running3 1 false with host := [.read 0x4 4], turns := [.host, .irq Config.ownSrc] } = .next t :=
  ⟨rfl, ⟨noCommand_read 0x4 4, by simp⟩, ⟨rfl, by simp, by simp⟩, _, rfl⟩

theorem witness_BufferTailIsUnobservable :
    AgreesBelowSize idle3 (three.setIfInBounds 9 ⟨7, 7⟩) ∧ three.setIfInBounds 9 ⟨7, 7⟩ ≠ idle3.buf ∧
    ∃ t, runSteps 1 idle3 = .next t := by
  refine ⟨?_, by decide, _, rfl⟩
  intro i h hi
  have : i < 3 := hi
  simp only [Vector.getElem_setIfInBounds]
  rw [if_neg (by omega)]
  rfl

theorem witness_TimerStepCommutesWithCommands :
    Inv (running3 0 false) ∧ (running3 0 false).tie = true ∧ Instr.load 3 ≠ .stop ∧
    ∃ t, exec (.load 3) (running3 0 false) = .next t :=
  ⟨running3_inv 0 false (by decide), rfl, by decide, _, rfl⟩

/-- `LOAD` before a completion that is not the final one, and `WRSTG` and `QCAP` before the final one. -/
theorem witness_BridgeStepCommutesWithCommands :
    ((running3 1 true).running = true ∧ Instr.load 3 ≠ .stop ∧
      (running3 1 true).cursor.toNat + 1 < (running3 1 true).size.toNat) ∧
    ((running3 2 true).running = true ∧ Instr.wrstg 9 1 1 ≠ .stop ∧ Instr.qcap ≠ .stop ∧
      ∃ t, exec (.wrstg 9 1 1) (running3 2 true) = .next t) := ⟨by decide, by decide, by decide, by decide, _, rfl⟩

theorem witness_StopAndBridgeInEitherOrder :
    Inv (running3 0 true) ∧ (running3 0 true).running = true ∧ (running3 0 true).tpend = true ∧
    (running3 0 true).cursor.toNat + 1 < (running3 0 true).size.toNat ∧ ∃ t, exec .stop (running3 0 true) = .next t :=
  ⟨running3_inv 0 true (by decide), rfl, rfl, by decide, _, rfl⟩

end Sys2Proof.Tests
end

namespace Sys2Proof.Machine

/-! `SIZE` as a number (R18). -/

/-- A count up to `MAX` fits the 4 bits of `SIZE` and `CURSOR`. -/
theorem ofNat_toNat_of_le_max {n : Nat} (h : n ≤ Config.max) : (BitVec.ofNat 4 n).toNat = n :=
  Nat.mod_eq_of_lt (h.trans_lt (by decide))

/-! The converse of the inversion lemmas of Laws/Step.lean: each effect listed there is what the machine does. -/

theorem exec_of_commandEffect {s t : State} {i : Instr} (h : CommandEffect s i t) : exec i s = .next t := by
  cases h with
  | wrstg idx p f h => exact if_pos (decide_eq_true h)
  | wrstgIllegal idx p f h => exact if_neg (by simpa [stagingIndexOk] using h)
  | loadRefused n h =>
    rcases h with hr | hn
    · exact congrArg _ (loadBody_running (s := setIll false s) hr)
    · exact congrArg _ (loadBody_long hn)
  | loadDone n hr hn => exact congrArg _ (loadBody_commits (s := setIll false s) hr hn)
  | startIgnored h => exact congrArg _ (startBody_ignored (s := setIll false s) h)
  | startBegins hs hr => exact congrArg _ (startBody_begins (s := setIll false s) hs hr)
  | stop => rfl
  | qrun => rfl
  | qcap => rfl

theorem irqEntry_completion {s : State} {src : Nat} (hs : src = Config.ownSrc) (hp : s.tpend = true) :
    irqEntry src s = bridgeStep s := if_pos ⟨hs, hp⟩

theorem irqEntry_other {s : State} {src : Nat} (h : src ≠ Config.ownSrc ∨ s.tpend = false) : irqEntry src s = s :=
  if_neg (by rintro ⟨hs, hp⟩; simp [hs, hp] at h)

/-- The host's turn with a read pending. -/
theorem step_read {s : State} {off : Fin 16} {n : Nat} {rest : List HostAccess} (ht : nextTurn s = .host)
    (hh : s.host = .read off n :: rest) : step s = hostRead off n rest (afterTurn s) := by
  simp only [step_eq_takeTurn, ht, takeTurn, hostTurn, afterTurn_host, hh]

/-- The host's turn with a write pending. -/
theorem step_write {s : State} {off : Fin 16} {n : Nat} {v : Word} {rest : List HostAccess} (ht : nextTurn s = .host)
    (hh : s.host = .write off n v :: rest) : step s = hostWrite off n v rest (afterTurn s) := by
  simp only [step_eq_takeTurn, ht, takeTurn, hostTurn, afterTurn_host, hh]

/-- The host's turn with an aligned write of a register pending. -/
theorem step_writeReg {s : State} {off : Fin 16} {n : Nat} {v : Word} {rest : List HostAccess} {r : PortReg}
    (ht : nextTurn s = .host) (hh : s.host = .write off n v :: rest) (hr : portReg off n = some r) :
    step s = writeReg r v { afterTurn s with host := rest } := by
  simp only [step_write ht hh, hostWrite, hr]

theorem step_of_stepEffect {s t : State} (h : StepEffect s t) : step s = .next t := by
  cases h with
  | timer ht => rw [step_eq_takeTurn, ht]; rfl
  | completion src ht hs hp =>
    rw [step_eq_takeTurn, ht]
    exact congrArg _ (irqEntry_completion (s := afterTurn s) hs hp)
  | otherEntry src ht hs =>
    rw [step_eq_takeTurn, ht]
    exact congrArg _ (irqEntry_other (s := afterTurn s) hs)
  | simulated ht => rw [step_eq_takeTurn, ht]; rfl
  | reset ht => rw [step_eq_takeTurn, ht]; rfl
  | hostIdle ht hh => simp only [step_eq_takeTurn, ht, takeTurn, hostTurn, afterTurn_host, hh]
  | read off n rest r ht hh hr => rw [step_read ht hh, hostRead, hr]; rfl
  | readFault off n rest ht hh hr => rw [step_read ht hh, hostRead, hr]
  | writeFault off n v rest ht hh hr => rw [step_write ht hh, hostWrite, hr]
  | ignoredWrite off n v rest r ht hh hr hc =>
    rw [step_writeReg ht hh hr]
    cases r with
    | cmd => exact absurd rfl hc
    | status => rfl
    | result => rfl
    | timer => rfl
  | illegalWord off n v rest e ht hh hr hd => rw [step_writeReg ht hh hr, writeReg, execWord, hd]; rfl
  | command off n v rest i _ ht hh hr hd he =>
    rw [step_writeReg ht hh hr, writeReg, execWord, hd]
    exact exec_of_commandEffect he

/-- The timer's turn as one update: the request is raised exactly if the source is armed (R108, R109). -/
theorem timerTurn_eq (s : State) : timerTurn s = { s with tpend := s.tie || s.tpend } := by
  unfold timerTurn
  split
  case isTrue h => rw [show (s.tie || s.tpend) = true by simp [h]]
  case isFalse h => rw [show (s.tie || s.tpend) = s.tpend by simp [h]]

/-! What a step does, sorted by its kind (Safety.lean) instead of by its turn. -/

/-- A turn that leaves every field of the block but `FAULT` alone. -/
def SameBlock (s t : State) : Prop :=
  t = { s with fault := t.fault, host := t.host, turns := t.turns, reads := t.reads }

/-- Everything a step of each kind can do to the state `s`. -/
inductive KindEffect (s : State) : StepKind → State → Prop where
  | command (rest : List HostAccess) (i : Instr) (t : State) (h : CommandEffect { afterTurn s with host := rest } i t) :
      KindEffect s (.command i) t
  | illegalWord (rest : List HostAccess) : KindEffect s .illegalWord (setIll true { afterTurn s with host := rest })
  | hostOther (t : State) (h : SameBlock s t) : KindEffect s .hostOther t
  | timer : KindEffect s .timer (timerTurn (afterTurn s))
  | completion : KindEffect s .completion (bridgeStep (afterTurn s))
  | otherEntry : KindEffect s .otherEntry (afterTurn s)
  | reset : KindEffect s .reset (systemReset (afterTurn s))

theorem sameBlock_raiseFault (r : Fault) (s : State) : SameBlock s (raiseFault r s) := by
  rw [raiseFault_frame]
  rfl

theorem kindEffect_of_stepEffect {s t : State} (h : StepEffect s t) : KindEffect s (stepKind s) t := by
  cases h with
  | timer ht => rw [stepKind_timer ht]; exact .timer
  | completion src ht hs hp => rw [stepKind_completion ht hs hp]; exact .completion
  | otherEntry src ht hs => rw [stepKind_otherEntry ht hs]; exact .otherEntry
  | simulated ht => rw [stepKind_simulated ht]; exact .completion
  | reset ht => rw [stepKind_reset ht]; exact .reset
  | hostIdle ht hh => rw [stepKind_host ht, hh]; exact .hostOther _ rfl
  | read off n rest r ht hh hr => rw [stepKind_host ht, hh]; exact .hostOther _ rfl
  | readFault off n rest ht hh hr =>
    rw [stepKind_host ht, hh]
    exact .hostOther _ (sameBlock_raiseFault _ (afterTurn s))
  | ignoredWrite off n v rest r ht hh hr hc =>
    rw [stepKind_host ht, hh, hostKind_ignored hr hc]
    exact .hostOther _ rfl
  | writeFault off n v rest ht hh hr =>
    rw [stepKind_host ht, hh, hostKind_fault hr]
    exact .hostOther _ (sameBlock_raiseFault _ { afterTurn s with host := rest })
  | illegalWord off n v rest e ht hh hr hd =>
    rw [stepKind_host ht, hh, hostKind_illegal hr hd]
    exact .illegalWord rest
  | command off n v rest i _ ht hh hr hd he =>
    rw [stepKind_host ht, hh, hostKind_command hr hd]
    exact .command rest i t he

end Sys2Proof.Machine

namespace Sys2Proof.Machine

/-! The invariant (10_state.md R39, R40; 42_timer_programmer.md R82, R95). -/

/-- The values of the last `Prog` entry of a history that ends in one. -/
theorem lastProg_append_prog (es : List TimerEvent) (a : BitVec 16) (r : BitVec 8) :
    lastProg (es ++ [.prog a r]) = some (a, r) := by
  induction es with
  | nil => rfl
  | cons e es ih => simp only [List.cons_append, lastProg, ih]

/-- A `Disarm` does not change which `Prog` entry is the last. -/
theorem lastProg_append_disarm (es : List TimerEvent) : lastProg (es ++ [.disarm]) = lastProg es := by
  induction es with
  | nil => rfl
  | cons e es ih => simp only [List.cons_append, lastProg, ih]

/-- R82: a programmed reload value lies between 24 and 4999. -/
theorem reload_range (f : BitVec 16) : 24 ≤ (reload f).toNat ∧ (reload f).toNat ≤ 4999 := by
  have := reload_quotient_bounds f
  rw [reload_toNat]
  omega

theorem inv_reset : Inv State.reset := by
  constructor <;> simp [State.reset, lastProg]

/-- `TimerProgram` (R93) makes the invariant hold in a running state whose cursor names a valid burst and whose other
fields come from a state of the invariant. -/
theorem inv_timerProgram {s t : State} (b : Burst) (h : Inv s) (hsize : t.size = s.size) (hlog : t.tlog = s.tlog)
    (hfault : t.fault = s.fault) (hr : t.running = true) (hc : t.cursor.toNat < s.size.toNat) :
    Inv (timerProgram b t) where
  size_le := by simpa [hsize] using h.size_le
  cursor_le := by simpa [hsize] using hc.le
  running_cursor _ := by simp only [timerProgram_size, timerProgram_cursor, hsize]; omega
  tie_eq_running := hr.symm
  idle_tpend hi := by simp [hr] at hi
  log_end _ := by simp [progOf, hr]
  log_values := by simp [progOf, lastProg_append_prog]
  log_tie := by simp [progOf]
  log_range a r hm := by
    rw [timerProgram_tlog, List.mem_append, hlog] at hm
    rcases hm with hm | hm
    · exact h.log_range a r hm
    · obtain ⟨rfl, -⟩ : a = reload b.freq ∧ r = repeatCount b.pulses := by simpa [progOf] using hm
      exact reload_range b.freq
  fault_nodup := by simpa [hfault] using h.fault_nodup

/-- `STOP`'s body (R74, R99) keeps the invariant, wherever in `0 .. SIZE` the cursor is left. -/
theorem inv_stopBody {s : State} (c : BitVec 4) (h : Inv s) (hc : c.toNat ≤ s.size.toNat) :
    Inv (stopBody { s with cursor := c }) where
  size_le := h.size_le
  cursor_le := hc
  running_cursor hr := nomatch hr
  tie_eq_running := rfl
  idle_tpend _ := rfl
  log_end _ := by simp [stopBody]
  log_values := by simpa [stopBody, lastProg_append_disarm] using h.log_values
  log_tie := by simp [stopBody]
  log_range a r hm := h.log_range a r (by simpa [stopBody] using hm)
  fault_nodup := h.fault_nodup

/-- In a running state of the invariant the advanced cursor is exact: it does not wrap (R8, R100). -/
theorem cursor_succ_toNat {s : State} (h : Inv s) (hr : s.running = true) :
    (BitVec.ofNat 4 (s.cursor.toNat + 1)).toNat = s.cursor.toNat + 1 :=
  ofNat_toNat_of_le_max ((h.running_cursor hr).2.trans_le h.size_le)

theorem inv_complete {s : State} (h : Inv s) : Inv (complete s) := by
  rcases complete_cases s with ⟨-, he⟩ | ⟨hr, -, he⟩ | ⟨hr, hn, he⟩
  · rwa [he]
  · rw [he]
    exact inv_stopBody _ h ((cursor_succ_toNat h hr).trans_le (h.running_cursor hr).2)
  · rw [he]
    exact inv_timerProgram _ h rfl rfl rfl hr ((cursor_succ_toNat h hr).trans_lt hn)

theorem inv_bridgeStep {s : State} (h : Inv s) : Inv (bridgeStep s) :=
  inv_complete (s := { s with tpend := false }) { h with idle_tpend := fun _ => rfl }

theorem inv_timerTurn {s : State} (h : Inv s) : Inv (timerTurn s) := by
  rw [timerTurn_eq]
  exact { h with idle_tpend := fun hi => by simp [h.tie_eq_running, h.idle_tpend hi, show s.running = false from hi] }

theorem inv_systemReset {s : State} (h : Inv s) : Inv (systemReset s) :=
  { inv_reset with fault_nodup := h.fault_nodup }

theorem inv_raiseFault (r : Fault) {s : State} (h : Inv s) : Inv (raiseFault r s) := by
  have hn := raiseFault_nodup r s h.fault_nodup
  rw [raiseFault_frame]
  exact { h with fault_nodup := hn }

/-- A successful `LOAD n` (R69) keeps the invariant. -/
theorem inv_commitStaging {s : State} {n : Nat} (h : Inv s) (hr : s.running = false) (hn : n ≤ Config.max) :
    Inv (commitStaging n s) :=
  { h with
    size_le := (ofNat_toNat_of_le_max hn).trans_le hn
    cursor_le := Nat.zero_le _
    running_cursor := fun hi => by simp [hr] at hi }

theorem inv_command {s t : State} {i : Instr} (h : Inv s) (he : CommandEffect s i t) : Inv t := by
  have hill (b : Bool) : Inv (setIll b s) := { h with }
  cases he with
  | wrstg | wrstgIllegal | loadRefused | startIgnored | qrun | qcap => exact { h with }
  | loadDone n hr hn => exact { inv_commitStaging (hill false) hr hn with }
  | startBegins hs hr => exact inv_timerProgram _ h rfl rfl rfl rfl (BitVec.toNat_pos_of_ne_zero hs)
  | stop => exact inv_stopBody s.cursor (hill false) h.cursor_le

theorem inv_step {s t : State} (h : Inv s) (he : StepEffect s t) : Inv t := by
  have hturn : Inv (afterTurn s) := { h with }
  have hhost (rest : List HostAccess) : Inv { afterTurn s with host := rest } := { h with }
  cases he with
  | timer => exact inv_timerTurn hturn
  | completion | simulated => exact inv_bridgeStep hturn
  | otherEntry | hostIdle => exact hturn
  | reset => exact inv_systemReset hturn
  | read | ignoredWrite | illegalWord => exact { h with }
  | readFault => exact inv_raiseFault _ hturn
  | writeFault off n v rest => exact inv_raiseFault _ (hhost rest)
  | command off n v rest i _ ht hh hr hd hc => exact inv_command (hhost rest) hc

/-- Settles O45, from `inv_step`, the case analysis over everything a step can do. -/
theorem everyStepKeepsInvariant : Obligations.EveryStepKeepsInvariant :=
  fun _ _ h hs => inv_step h (stepEffect_of_step hs)

/-- Settles O44: every clause speaks of zeros, an Idle block and an empty history. -/
theorem invariantAtReset : Obligations.InvariantAtReset := inv_reset

end Sys2Proof.Machine

namespace Sys2Proof.Machine

/-! Who writes each field (10_state.md R24, R41, R42). -/

/-- A step adds no fault but that of a malformed access, and removes none (R24, R45, R115). -/
theorem stepEffect_fault {s t : State} (h : StepEffect s t) :
    t.fault = s.fault ∨
    (nextTurn s = .host ∧ (∀ f, f ∈ s.fault → f ∈ t.fault) ∧
      ∃ off n, portReg off n = none ∧
        (s.host.head? = some (.read off n) ∨ ∃ v, s.host.head? = some (.write off n v))) := by
  cases h with
  | timer => exact .inl (by rw [timerTurn_eq]; rfl)
  | completion | simulated => exact .inl (by simp [bridgeStep_frame])
  | otherEntry | reset | hostIdle | read | ignoredWrite | illegalWord => exact .inl rfl
  | command off n v rest i _ ht hh hr hd he => exact .inl (commandEffect_frame he).1
  | readFault off n rest ht hh hr =>
    exact .inr ⟨ht, fun f hf => (mem_raiseFault _ f _).mpr (.inl hf), off, n, hr, .inl (by simp [hh])⟩
  | writeFault off n v rest ht hh hr =>
    exact .inr ⟨ht, fun f hf => (mem_raiseFault _ f _).mpr (.inl hf), off, n, hr, .inr ⟨v, by simp [hh]⟩⟩

/-- Settles O38, from `stepEffect_fault`: a step keeps `FAULT` or is a malformed access, which only adds to it. -/
theorem faultIsNeverCleared : Obligations.FaultIsNeverCleared := by
  intro s t hs
  rcases stepEffect_fault (stepEffect_of_step hs) with he | ⟨ht, hkeep, hmal⟩
  · exact ⟨fun f hf => he ▸ hf, fun hne => absurd he hne⟩
  · exact ⟨hkeep, fun _ => ⟨ht, hmal⟩⟩

/-- Settles O46: a step's kind lists the fields it may write, a command's kind those of the command. -/
theorem onlyNamedStepsWriteEachField : Obligations.OnlyNamedStepsWriteEachField := by
  intro s t hs
  have hk := kindEffect_of_stepEffect (stepEffect_of_step hs)
  generalize stepKind s = k at *
  cases hk with
  | reset => simp
  | completion => simp [bridgeStep_frame]
  | timer => cases h : s.tie <;> simp [timerTurn_eq, h]
  | otherEntry => simp
  | illegalWord rest => simp
  | hostOther _ h => rw [h]; simp
  | command rest i _ he =>
    cases he with
    | wrstg idx p f h => simp
    | wrstgIllegal idx p f h => simp
    | loadRefused n h => simp
    | loadDone n hr hn => simp [show s.running = false from hr]
    | startIgnored h => simp
    | startBegins hs hr => simp
    | stop => simp
    | qrun => simp
    | qcap => simp

theorem hostKind_ne_reset (accesses : List HostAccess) : hostKind accesses ≠ .reset := by
  unfold hostKind
  split
  case h_1 =>
    split
    case h_1 => split <;> simp
    case h_2 => simp
  case h_2 => simp

theorem nextTurn_of_stepKind_reset {s : State} (h : stepKind s = .reset) : nextTurn s = .reset := by
  cases ht : nextTurn s with
  | host => exact absurd (stepKind_host ht ▸ h) (hostKind_ne_reset _)
  | timer => simp [stepKind_timer ht] at h
  | irq src =>
    simp only [stepKind, ht] at h
    split at h <;> cases h
  | simulated => simp [stepKind_simulated ht] at h
  | reset => rfl

/-- Settles O48, from the row of R42's table for `BUF` and `SIZE` (O46). -/
theorem bufferFixedWhileRunning : Obligations.BufferFixedWhileRunning := by
  intro s t hs hr ht
  obtain ⟨hbuf, -⟩ := onlyNamedStepsWriteEachField s t hs
  by_contra hne
  rcases hbuf (not_and_or.mp hne) with hk | ⟨-, hidle⟩
  · exact ht (nextTurn_of_stepKind_reset hk)
  · simp [hr] at hidle

end Sys2Proof.Machine

namespace Sys2Proof.Machine

/-! The bits of the registers (10_state.md R34, R36). -/

theorem flagWord_toNat (b : Bool) : (flagWord b).toNat = if b then 1 else 0 := by
  cases b <;> rfl

/-- A field placed above `k` lower bits, as a sum of numbers. -/
theorem shiftLeft_or_toNat {a b : Word} {m n k : Nat} (ha : a.toNat = m) (hb : b.toNat = n) (hm : m * 2 ^ k < 2 ^ 32)
    (hn : n < 2 ^ k) : (a <<< k ||| b).toNat = m * 2 ^ k + n := by
  rw [BitVec.toNat_or, BitVec.toNat_shiftLeft, Nat.shiftLeft_eq, ha, hb, Nat.mod_eq_of_lt hm, Nat.mul_comm,
    ← Nat.two_pow_add_eq_or_of_lt hn]

theorem statusWord_toNat (s : State) :
    (statusWord s).toNat =
      s.cursor.toNat * 2 ^ 8 +
        (s.size.toNat * 2 ^ 4 + ((if s.ill then 1 else 0) * 2 ^ 1 + if s.running then 1 else 0)) := by
  have := s.cursor.isLt
  have := s.size.isLt
  rw [statusWord, BitVec.or_assoc, BitVec.or_assoc]
  have hlow := shiftLeft_or_toNat (k := 1) (flagWord_toNat s.ill) (flagWord_toNat s.running)
    (by split <;> decide) (by split <;> decide)
  have hmid := shiftLeft_or_toNat (a := s.size.zeroExtend 32) (k := 4) (BitVec.toNat_setWidth_of_le (by decide)) hlow
    (by omega) (by split_ifs <;> decide)
  exact shiftLeft_or_toNat (k := 8) (BitVec.toNat_setWidth_of_le (by decide)) hmid (by omega) (by split_ifs <;> omega)

theorem timerWord_toNat (s : State) :
    (timerWord s).toNat =
      (if s.tpend then 1 else 0) * 2 ^ 25 +
        ((if s.tie then 1 else 0) * 2 ^ 24 + (s.trcr.toNat * 2 ^ 16 + s.tarr.toNat)) := by
  have := s.tarr.isLt
  have := s.trcr.isLt
  rw [timerWord, BitVec.or_assoc, BitVec.or_assoc]
  have hlow := shiftLeft_or_toNat (a := s.trcr.zeroExtend 32) (b := s.tarr.zeroExtend 32) (k := 16)
    (BitVec.toNat_setWidth_of_le (by decide)) (BitVec.toNat_setWidth_of_le (by decide)) (by omega) (by omega)
  have hmid := shiftLeft_or_toNat (k := 24) (flagWord_toNat s.tie) hlow (by split <;> decide) (by omega)
  exact shiftLeft_or_toNat (k := 25) (flagWord_toNat s.tpend) hmid (by split <;> decide) (by split_ifs <;> omega)

/-- Settles O30, from STATUS as a sum of its fields. -/
theorem statusBits : Obligations.StatusBits := by
  intro s
  have := s.cursor.isLt
  have := s.size.isLt
  simp only [readReg, statusWord_toNat]
  split_ifs <;> omega

/-- Settles O31, from TIMER as a sum of its fields. -/
theorem timerBits : Obligations.TimerBits := by
  intro s
  have := s.tarr.isLt
  have := s.trcr.isLt
  simp only [readReg, timerWord_toNat]
  split_ifs <;> omega

/-! System reset (10_state.md R38, 70_reset_and_hazards.md R121). -/

/-- Settles O42: the step is `systemReset`, whose fields are those of `State.reset`. -/
theorem resetSetsEveryField : Obligations.ResetSetsEveryField := by
  intro s ts hts
  have hturn : nextTurn s = .reset := by simp [nextTurn, hts]
  refine ⟨systemReset (afterTurn s), step_of_stepEffect (.reset hturn), ?_⟩
  have hzero : ∀ i (h : i < Config.max), (Vector.replicate Config.max Burst.zero)[i] = { pulses := 0, freq := 0 } :=
    fun i h => Vector.getElem_replicate h
  exact ⟨fun i h => ⟨hzero i h, hzero i h⟩, rfl, rfl, rfl, rfl, rfl, rfl, rfl, rfl, rfl, rfl, rfl, rfl,
    congrArg List.tail hts, rfl⟩

end Sys2Proof.Machine

namespace Sys2Proof.Machine

/-! Noninterference: what the contents of the two buffers can influence (10_state.md R17, R21; R100, D11, U10). -/

/-- The state with other contents in `BUF` and `STG`. -/
def State.withBuffers (s : State) (b g : Vector Burst Config.max) : State := { s with buf := b, stg := g }

theorem agreesBelowSize_self (s : State) : AgreesBelowSize s s.buf := fun _ _ _ => rfl

/-- What playback reads of a `BUF` that agrees below `SIZE`. Above `MAX` there is no entry to differ (log 8). -/
theorem burstAt_withBuffers {s : State} {b : Vector Burst Config.max} (g : Vector Burst Config.max)
    (h : AgreesBelowSize s b) {i : Nat} (hi : i < s.size.toNat) : burstAt (s.withBuffers b g) i = burstAt s i := by
  unfold burstAt
  split
  case isTrue hm => exact h i hm hi
  case isFalse => rfl

theorem complete_withBuffers {s : State} {b : Vector Burst Config.max} (g : Vector Burst Config.max)
    (h : AgreesBelowSize s b) : complete (s.withBuffers b g) = (complete s).withBuffers b g := by
  rcases complete_cases s with ⟨hr, he⟩ | ⟨hr, hc, he⟩ | ⟨hr, hc, he⟩
  · rw [he, complete_idle (s := s.withBuffers b g) hr]
  · rw [he, complete_last (s := s.withBuffers b g) hr hc]
    rfl
  · rw [he]
    exact (complete_next (s := s.withBuffers b g) hr hc).trans
      (congrArg (timerProgram · _) (burstAt_withBuffers g h hc))

theorem bridgeStep_withBuffers {s : State} {b : Vector Burst Config.max} (g : Vector Burst Config.max)
    (h : AgreesBelowSize s b) : bridgeStep (s.withBuffers b g) = (bridgeStep s).withBuffers b g :=
  complete_withBuffers (s := { s with tpend := false }) g h

theorem timerTurn_withBuffers (s : State) (b g : Vector Burst Config.max) :
    timerTurn (s.withBuffers b g) = (timerTurn s).withBuffers b g := by
  rw [timerTurn_eq, timerTurn_eq]
  rfl

theorem raiseFault_withBuffers (r : Fault) (s : State) (b g : Vector Burst Config.max) :
    raiseFault r (s.withBuffers b g) = (raiseFault r s).withBuffers b g :=
  (apply_ite (State.withBuffers · b g) (r ∈ s.fault) s { s with fault := s.fault ++ [r] }).symm

theorem readReg_withBuffers (r : PortReg) (s : State) (b g : Vector Burst Config.max) :
    readReg r (s.withBuffers b g) = readReg r s := by
  cases r <;> rfl

/-- How other buffers `b'` and `g'` after a step from `s` to `t` relate to the other buffers `b` and `g` before it: `b'`
agrees with `BUF` below `SIZE` again, and a buffer that was the state's own still is. -/
structure BuffersFollow (s t : State) (b g b' g' : Vector Burst Config.max) : Prop where
  agrees : AgreesBelowSize t b'
  buf_eq : b = s.buf → b' = t.buf
  stg_eq : g = s.stg → g' = t.stg

theorem buffersFollow_of_kept {s t : State} {b : Vector Burst Config.max} (g : Vector Burst Config.max)
    (h : AgreesBelowSize s b) (hb : t.buf = s.buf) (hsize : t.size = s.size) (hg : t.stg = s.stg) :
    BuffersFollow s t b g b g where
  agrees i hi hlt := by simpa only [hb] using h i hi (hsize ▸ hlt)
  buf_eq := fun h => h.trans hb.symm
  stg_eq := fun h => h.trans hg.symm

/-- The command is a `LOAD` that succeeds, the only step that reads `STG`. -/
def LoadSucceeds (s : State) (i : Instr) : Prop := ∃ n, i = .load n ∧ s.running = false ∧ n.toNat ≤ Config.max

theorem commandEffect_withBuffers {s t : State} {i : Instr} {b g : Vector Burst Config.max} (h : CommandEffect s i t)
    (hb : AgreesBelowSize s b) (hl : LoadSucceeds s i → g = s.stg) :
    ∃ b' g', CommandEffect (s.withBuffers b g) i (t.withBuffers b' g') ∧ BuffersFollow s t b g b' g' := by
  cases h with
  | wrstg idx p f h =>
    exact ⟨b, g.setIfInBounds idx.toNat ⟨p, f⟩, .wrstg idx p f h, hb, id, fun hg => by rw [hg]; rfl⟩
  | wrstgIllegal idx p f h => exact ⟨b, g, .wrstgIllegal idx p f h, buffersFollow_of_kept g hb rfl rfl rfl⟩
  | loadRefused n h => exact ⟨b, g, .loadRefused n h, buffersFollow_of_kept g hb rfl rfl rfl⟩
  | loadDone n hr hn =>
    obtain rfl : g = s.stg := hl ⟨n, rfl, hr, hn⟩
    refine ⟨_, s.stg, .loadDone n hr hn, ?_, ?_, fun _ => rfl⟩
    · intro i hi hlt
      have hin : i < n.toNat := hlt.trans_eq (ofNat_toNat_of_le_max hn)
      simp [State.withBuffers, hin]
    · rintro rfl
      rfl
  | startIgnored h => exact ⟨b, g, .startIgnored h, buffersFollow_of_kept g hb rfl rfl rfl⟩
  | startBegins hs hr =>
    have he := CommandEffect.startBegins (s := s.withBuffers b g) hs hr
    rw [burstAt_withBuffers g hb (BitVec.toNat_pos_of_ne_zero hs)] at he
    exact ⟨b, g, he, buffersFollow_of_kept g hb rfl rfl rfl⟩
  | stop => exact ⟨b, g, .stop, buffersFollow_of_kept g hb rfl rfl rfl⟩
  | qrun => exact ⟨b, g, .qrun, buffersFollow_of_kept g hb rfl rfl rfl⟩
  | qcap => exact ⟨b, g, .qcap, buffersFollow_of_kept g hb rfl rfl rfl⟩

/-- Whatever step can be taken with the buffers of `s` can be taken with others, that agree below `SIZE` and, if it is a
`LOAD` that succeeds, have the same staged bursts. -/
theorem stepEffect_withBuffers {s t : State} {b g : Vector Burst Config.max} (h : StepEffect s t)
    (hb : AgreesBelowSize s b) (hl : ∀ i, stepKind s = .command i → LoadSucceeds s i → g = s.stg) :
    ∃ b' g', StepEffect (s.withBuffers b g) (t.withBuffers b' g') ∧ BuffersFollow s t b g b' g' := by
  cases h with
  | timer ht =>
    refine ⟨b, g, ?_, by rw [timerTurn_eq]; exact buffersFollow_of_kept g hb rfl rfl rfl⟩
    rw [← timerTurn_withBuffers]
    exact .timer ht
  | completion src ht hs hp =>
    obtain ⟨hbuf, hsize, hstg, -⟩ := bridgeStep_frame (afterTurn s)
    refine ⟨b, g, ?_, buffersFollow_of_kept g hb hbuf hsize hstg⟩
    rw [← bridgeStep_withBuffers (s := afterTurn s) g hb]
    exact .completion src ht hs hp
  | simulated ht =>
    obtain ⟨hbuf, hsize, hstg, -⟩ := bridgeStep_frame (afterTurn s)
    refine ⟨b, g, ?_, buffersFollow_of_kept g hb hbuf hsize hstg⟩
    rw [← bridgeStep_withBuffers (s := afterTurn s) g hb]
    exact .simulated ht
  | otherEntry src ht hs => exact ⟨b, g, .otherEntry src ht hs, buffersFollow_of_kept g hb rfl rfl rfl⟩
  | reset ht => exact ⟨_, _, .reset ht, agreesBelowSize_self _, fun _ => rfl, fun _ => rfl⟩
  | hostIdle ht hh => exact ⟨b, g, .hostIdle ht hh, buffersFollow_of_kept g hb rfl rfl rfl⟩
  | read off n rest r ht hh hr =>
    refine ⟨b, g, ?_, buffersFollow_of_kept g hb rfl rfl rfl⟩
    rw [← readReg_withBuffers r (afterTurn s) b g]
    exact .read off n rest r ht hh hr
  | readFault off n rest ht hh hr =>
    refine ⟨b, g, ?_, by rw [raiseFault_frame]; exact buffersFollow_of_kept g hb rfl rfl rfl⟩
    rw [← raiseFault_withBuffers]
    exact .readFault off n rest ht hh hr
  | writeFault off n v rest ht hh hr =>
    refine ⟨b, g, ?_, by rw [raiseFault_frame]; exact buffersFollow_of_kept g hb rfl rfl rfl⟩
    rw [← raiseFault_withBuffers]
    exact .writeFault off n v rest ht hh hr
  | ignoredWrite off n v rest r ht hh hr hc =>
    exact ⟨b, g, .ignoredWrite off n v rest r ht hh hr hc, buffersFollow_of_kept g hb rfl rfl rfl⟩
  | illegalWord off n v rest e ht hh hr hd =>
    exact ⟨b, g, .illegalWord off n v rest e ht hh hr hd, buffersFollow_of_kept g hb rfl rfl rfl⟩
  | command off n v rest i _ ht hh hr hd he =>
    have hkind : stepKind s = .command i := by rw [stepKind_host ht, hh, hostKind_command hr hd]
    obtain ⟨b', g', he', hf⟩ := commandEffect_withBuffers he hb (hl i hkind)
    exact ⟨b', g', .command off n v rest i _ ht hh hr hd he', hf.agrees, hf.buf_eq, hf.stg_eq⟩

/-- Settles O50, by making the same step with other staged bursts (`stepEffect_withBuffers`). -/
theorem stagingIsReadOnlyByLoad : Obligations.StagingIsReadOnlyByLoad := by
  intro s t v hs hl
  have hload : ∀ i, stepKind s = .command i → LoadSucceeds s i → v = s.stg := by
    rintro _ hk ⟨n, rfl, hr, hn⟩
    rcases hl n hk with h | h
    · simp [hr] at h
    · exact absurd hn (Nat.not_le.mpr h)
  obtain ⟨b', g', he, hf⟩ := stepEffect_withBuffers (stepEffect_of_step hs) (agreesBelowSize_self s) hload
  obtain rfl := hf.buf_eq rfl
  exact ⟨t.withBuffers t.buf g', step_of_stepEffect he, rfl⟩

/-- A run is the same, but for `BUF`, with a `BUF` that agrees below `SIZE`. -/
theorem runSteps_withBuf {n : Nat} {s t : State} {v : Vector Burst Config.max} (hv : AgreesBelowSize s v)
    (hr : runSteps n s = .next t) : ∃ w, runSteps n { s with buf := v } = .next { t with buf := w } := by
  induction n generalizing s v with
  | zero =>
    cases hr
    exact ⟨v, rfl⟩
  | succ n ih =>
    obtain ⟨m, hs, hm⟩ := runSteps_succ_next hr
    obtain ⟨b', g', he, hf⟩ := stepEffect_withBuffers (g := s.stg) (stepEffect_of_step hs) hv fun _ _ _ => rfl
    obtain rfl := hf.stg_eq rfl
    obtain ⟨w, hw⟩ := ih hf.agrees hm
    exact ⟨w, (runSteps_of_step (step_of_stepEffect he)).trans hw⟩

/-- Settles O56, by induction over the run (`runSteps_withBuf`). -/
theorem bufferTailIsUnobservable : Obligations.BufferTailIsUnobservable := by
  intro n s t v hv hr
  obtain ⟨w, hw⟩ := runSteps_withBuf hv hr
  exact ⟨{ t with buf := w }, hw, rfl, rfl⟩

end Sys2Proof.Machine

namespace Sys2Proof.Machine

/-! The register window (20_memory.md R43 to R46). -/

/-- Which word of the window a register is: R44's map in units of four bytes. -/
def PortReg.index : PortReg → Nat
  | .cmd => 0
  | .status => 1
  | .result => 2
  | .timer => 3

theorem portReg_four_eq_some (off : Fin 16) (r : PortReg) : portReg off 4 = some r ↔ off.val = 4 * r.index := by
  cases r <;> revert off <;> decide

theorem portReg_of_ne_four (off : Fin 16) {n : Nat} (h : n ≠ 4) : portReg off n = none := if_neg h

theorem portReg_four_eq_none (off : Fin 16) : portReg off 4 = none ↔ off.val % 4 ≠ 0 ∨ 0xC < off.val := by
  revert off
  decide

/-- Settles O32: another number of bytes reaches nothing, and four bytes leave the sixteen offsets. -/
theorem onlyAlignedWordsReachRegisters : Obligations.OnlyAlignedWordsReachRegisters := by
  refine ⟨fun off n => ?_, rfl, rfl, rfl, rfl⟩
  by_cases hn : n = 4
  · subst hn
    simpa using portReg_four_eq_none off
  · simp [portReg_of_ne_four off hn, hn]

theorem windowOffset_windowAddr (off : Fin 16) : windowOffset (windowAddr off) = some off := by
  simp [windowOffset, windowAddr]

theorem windowOffset_eq_none (addr : Nat) :
    windowOffset addr = none ↔ addr < Config.base ∨ Config.base + 16 ≤ addr := by
  rw [windowOffset, dite_eq_right_iff]
  simp only [reduceCtorEq, imp_false]
  omega

/-- Settles O33, from `windowOffset_windowAddr` and `windowOffset_eq_none`; `BASE` is 16 times a number. -/
theorem windowIsSixteenBytes : Obligations.WindowIsSixteenBytes :=
  ⟨windowOffset_windowAddr, windowOffset_eq_none, Dvd.intro Config.windowIndex rfl⟩

theorem byteOf_toNat (w : Word) (k : Nat) : (byteOf w k).toNat = w.toNat / 2 ^ (8 * k) % 2 ^ 8 :=
  field_toNat w (8 * k) 8

/-- Four bytes as digits in base 256, the first the lowest (R46). -/
theorem wordOfBytes_toNat (b0 b1 b2 b3 : Byte) :
    (wordOfBytes b0 b1 b2 b3).toNat = ((b3.toNat * 2 ^ 8 + b2.toNat) * 2 ^ 8 + b1.toNat) * 2 ^ 8 + b0.toNat := by
  refine (append_toNat (b3 ++ b2 ++ b1) b0).trans ?_
  rw [append_toNat, append_toNat]

theorem wordOfBytes_byteOf (w : Word) : wordOfBytes (byteOf w 0) (byteOf w 1) (byteOf w 2) (byteOf w 3) = w := by
  apply BitVec.eq_of_toNat_eq
  have := w.isLt
  simp only [wordOfBytes_toNat, byteOf_toNat]
  omega

theorem regHolding_of_index {off : Fin 16} {r : PortReg} (h : off.val / 4 = r.index) : regHolding off = r := by
  cases r <;> simp [regHolding, h, PortReg.index]

/-- The register at `off` holds the window's bytes `off` to `off + 3`. -/
theorem windowByte_of_portReg (s : State) {off byteOff : Fin 16} {r : PortReg} {k : Nat} (hr : portReg off 4 = some r)
    (hk : k < 4) (hb : byteOff.val = off.val + k) : windowByte s byteOff = byteOf (readReg r s) k := by
  have hoff := (portReg_four_eq_some off r).mp hr
  have hreg : regHolding byteOff = r := regHolding_of_index (by omega)
  have hbyte : byteOff.val % 4 = k := by omega
  rw [windowByte, hreg, hbyte]

/-- Settles O6: bytes as digits of the word's number (`byteOf_toNat`), and R44's map for the window. -/
theorem wordBytesAreLittleEndian : Obligations.WordBytesAreLittleEndian :=
  ⟨fun w => ⟨fun k _ => byteOf_toNat w k, wordOfBytes_byteOf w⟩,
    fun s _ _ _ _ hr hk hb => windowByte_of_portReg s hr hk hb⟩

/-! Accesses of the host (20_memory.md R45, R47, R48). -/

/-- Settles O34: the step is the effect `read` of `StepEffect`, its value `readReg`'s. -/
theorem legalReadReturnsValueOnly : Obligations.LegalReadReturnsValueOnly := by
  intro s off r rest ht hh hr
  rw [step_of_stepEffect (.read off 4 rest r ht hh hr)]
  cases r <;> rfl

/-- Settles O35: each of the three offsets reaches a register other than CMD. -/
theorem readOnlyRegistersIgnoreWrites : Obligations.ReadOnlyRegistersIgnoreWrites := by
  intro s off v rest ht hh hoff
  obtain ⟨r, hr, hc⟩ : ∃ r, portReg off 4 = some r ∧ r ≠ .cmd := by
    rcases hoff with rfl | rfl | rfl
    · exact ⟨.status, rfl, by decide⟩
    · exact ⟨.result, rfl, by decide⟩
    · exact ⟨.timer, rfl, by decide⟩
  exact step_of_stepEffect (.ignoredWrite off 4 v rest r ht hh hr hc)

theorem mem_raiseFault_self (r : Fault) (s : State) : r ∈ (raiseFault r s).fault :=
  (mem_raiseFault r r s).mpr (.inr rfl)

/-- Settles O36: both accesses end in `raiseFault`, which adds its reason (`mem_raiseFault`) and changes nothing else
(`raiseFault_frame`). -/
theorem otherAccessesRaiseBusFault : Obligations.OtherAccessesRaiseBusFault := by
  intro s off n rest ht hr
  constructor
  · intro v hh
    exact ⟨_, step_of_stepEffect (.writeFault off n v rest ht hh hr), mem_raiseFault_self _ _,
      fun f => mem_raiseFault _ f _, raiseFault_frame _ _⟩
  · intro hh
    exact ⟨_, step_of_stepEffect (.readFault off n rest ht hh hr), mem_raiseFault_self _ _,
      fun f => mem_raiseFault _ f _, raiseFault_frame _ _⟩

/-- While a malformed read is the host's next access, no step takes an access or returns a read: the turns of the other
agents leave both lists alone, and the host's turn only raises the fault again (M1, log 5). -/
theorem stepEffect_malformedRead {s t : State} {off : Fin 16} {n : Nat} {rest : List HostAccess} (h : StepEffect s t)
    (hh : s.host = .read off n :: rest) (hr : portReg off n = none) : t.host = s.host ∧ t.reads = s.reads := by
  cases h with
  | timer => rw [timerTurn_eq]; exact ⟨rfl, rfl⟩
  | completion | simulated => simp [bridgeStep_frame]
  | otherEntry | reset | hostIdle => exact ⟨rfl, rfl⟩
  | readFault => rw [raiseFault_frame]; exact ⟨rfl, rfl⟩
  | read off' n' rest' r ht hh' hr' =>
    obtain ⟨⟨rfl, rfl⟩, rfl⟩ : (off = off' ∧ n = n') ∧ rest = rest' := by simpa [hh] using hh'
    simp [hr] at hr'
  | ignoredWrite off' n' v rest' r ht hh' | writeFault off' n' v rest' ht hh'
  | illegalWord off' n' v rest' e ht hh' | command off' n' v rest' i _ ht hh' => simp [hh] at hh'

/-- Settles O37, by induction over the run: every step keeps both lists (`stepEffect_malformedRead`). -/
theorem faultedReadNeverReturns : Obligations.FaultedReadNeverReturns := by
  intro k s t off n rest hh hr hrun
  refine run_induction (P := fun u => u.host = .read off n :: rest ∧ u.reads = s.reads) ?_ k s t ⟨hh, rfl⟩ hrun
  rintro u u' ⟨hhost, hreads⟩ he
  obtain ⟨hhost', hreads'⟩ := stepEffect_malformedRead he hhost hr
  exact ⟨hhost'.trans hhost, hreads'.trans hreads⟩

/-! Repeated commands (20_memory.md R48). -/

/-- Writing `ILL` with the value it has. -/
theorem setIll_self {b : Bool} {s : State} (h : s.ill = b) : setIll b s = s := by
  subst h
  rfl

/-- Writing `RESULT` with the value it has. -/
theorem setResult_self {v : Word} {s : State} (h : s.result = v) : setResult v s = s := by
  subst h
  rfl

/-- A commit of bursts that are loaded already, with `CURSOR` at the first. -/
theorem commitStaging_self {n : Nat} {s : State} (hsize : s.size = BitVec.ofNat 4 n) (hcursor : s.cursor = 0)
    (hbuf : ∀ i (h : i < Config.max), i < n → s.buf[i] = s.stg[i]) : commitStaging n s = s := by
  have hkept : (commitStaging n s).buf = s.buf := by
    ext1 i hi
    rw [commitStaging_getElem]
    split
    case isTrue hn => exact (hbuf i hi hn).symm
    case isFalse => rfl
  calc commitStaging n s = { s with buf := (commitStaging n s).buf, size := BitVec.ofNat 4 n, cursor := 0 } := rfl
    _ = s := by rw [hkept, ← hsize, ← hcursor]

/-- After `START` the block is Running, or `SIZE` is 0: a second one is ignored. -/
theorem commandEffect_start_idem {s t : State} (h : CommandEffect s .start t) : CommandEffect t .start t := by
  cases h with
  | startIgnored h => exact .startIgnored h
  | startBegins => exact .startIgnored (.inr rfl)

/-- `LOAD` keeps `RUNNING`, so a second one of the same count is refused again or commits the same bursts again. -/
theorem commandEffect_load_idem {s t : State} {n : BitVec 8} (h : CommandEffect s (.load n) t) :
    CommandEffect t (.load n) t := by
  cases h with
  | loadRefused _ h => exact .loadRefused n h
  | loadDone _ hr hn =>
    generalize ht : setResult 1 (commitStaging n.toNat (setIll false s)) = t
    have hcommit : commitStaging n.toNat t = t :=
      commitStaging_self (by simp [← ht]) (by simp [← ht]) fun i _ hi => by simp [← ht, hi]
    have hagain := CommandEffect.loadDone (s := t) n (by simpa [← ht] using hr) hn
    rwa [setIll_self (by simp [← ht]), hcommit, setResult_self (by simp [← ht])] at hagain

/-- Settles O17, from the two lemmas about the effect of a repeated command. -/
theorem startAndLoadAreIdempotent : Obligations.StartAndLoadAreIdempotent :=
  ⟨fun _ _ h => exec_of_commandEffect (commandEffect_start_idem (commandEffect_of_exec h)),
    fun _ _ _ h => exec_of_commandEffect (commandEffect_load_idem (commandEffect_of_exec h))⟩

end Sys2Proof.Machine

namespace Sys2Proof

/-! Encoding (30_encoding.md R57 to R59, R62): the fields of an encoded word, and decoding as two equivalences, one for
the legal words and one for the illegal ones. -/

theorem field_encode_wrstg (idx : BitVec 4) (p : BitVec 8) (f : BitVec 16) :
    field (encode (.wrstg idx p f)) 24 4 = idx ∧ field (encode (.wrstg idx p f)) 16 8 = p ∧
    field (encode (.wrstg idx p f)) 0 16 = f := by
  have := idx.isLt
  have := p.isLt
  have := f.isLt
  refine ⟨BitVec.eq_of_toNat_eq ?_, BitVec.eq_of_toNat_eq ?_, BitVec.eq_of_toNat_eq ?_⟩ <;>
    rw [field_toNat, encode_toNat, operandBits_wrstg] <;> omega

theorem field_encode_load (n : BitVec 8) :
    field (encode (.load n)) 8 20 = 0 ∧ field (encode (.load n)) 0 8 = n := by
  have := n.isLt
  refine ⟨(field_eq_zero _ _ _).mpr ?_, BitVec.eq_of_toNat_eq ?_⟩
  · rw [encode_toNat, operandBits_load]
    omega
  · rw [field_toNat, encode_toNat, operandBits_load]
    omega

theorem decode_encode {i : Instr} (h : i.wf = true) : decode (encode i) = .ok i := by
  cases i with
  | wrstg idx p f =>
    obtain ⟨hidx, hp, hf⟩ := field_encode_wrstg idx p f
    have hformat : decode (encode (.wrstg idx p f)) = decodeW (encode (.wrstg idx p f)) := by
      rw [decode, opcodeOf_encode]
      rfl
    rw [hformat, decodeW, hidx, hp, hf]
    exact if_pos h
  | load n =>
    obtain ⟨hzero, hn⟩ := field_encode_load n
    have hformat : decode (encode (.load n)) = decodeN (encode (.load n)) := by
      rw [decode, opcodeOf_encode]
      rfl
    rw [hformat, decodeN, hn]
    exact if_pos hzero
  | start => rfl
  | stop => rfl
  | qrun => rfl
  | qcap => rfl

theorem decodeW_eq_ok {w : Word} {i : Instr} :
    decodeW w = .ok i ↔
      stagingIndexOk (field w 24 4) = true ∧ .wrstg (field w 24 4) (field w 16 8) (field w 0 16) = i := by
  unfold decodeW
  split <;> simp_all

theorem decodeN_eq_ok {w : Word} {i : Instr} :
    decodeN w = .ok i ↔ field w 8 20 = 0 ∧ .load (field w 0 8) = i := by
  unfold decodeN
  split <;> simp_all

theorem decodeZ_eq_ok {w : Word} {i j : Instr} : decodeZ j w = .ok i ↔ w.toNat % 2 ^ 28 = 0 ∧ j = i := by
  simp only [decodeZ, field_eq_zero, Nat.pow_zero, Nat.div_one]
  split <;> simp_all

/-- The opcode and the 28 bits below it determine the word. -/
theorem encode_eq_of_opcode {w : Word} {i : Instr} (hop : (opcodeOf w).toNat = i.opcode.toNat)
    (hlow : w.toNat % 2 ^ 28 = i.operandBits.toNat) : encode i = w := by
  apply BitVec.eq_of_toNat_eq
  rw [encode_toNat, ← hop, ← hlow, opcodeOf_toNat, Nat.div_add_mod']

theorem encode_of_decode {w : Word} {i : Instr} (h : decode w = .ok i) : encode i = w ∧ i.wf = true := by
  unfold decode at h
  split at h
  case h_1 hop =>
    obtain ⟨hidx, rfl⟩ := decodeW_eq_ok.mp h
    refine ⟨encode_eq_of_opcode hop ?_, hidx⟩
    rw [operandBits_wrstg, field_toNat, field_toNat, field_toNat]
    omega
  case h_2 hop =>
    obtain ⟨hz, rfl⟩ := decodeN_eq_ok.mp h
    refine ⟨encode_eq_of_opcode hop ?_, rfl⟩
    rw [field_eq_zero] at hz
    rw [operandBits_load, field_toNat]
    omega
  case h_3 hop | h_4 hop | h_5 hop | h_6 hop =>
    obtain ⟨hz, rfl⟩ := decodeZ_eq_ok.mp h
    exact ⟨encode_eq_of_opcode hop hz, rfl⟩
  case h_7 => cases h

/-- The words that decode are exactly the words of the well-formed commands. -/
theorem decode_eq_ok_iff {w : Word} {i : Instr} : decode w = .ok i ↔ i.wf = true ∧ encode i = w := by
  constructor
  · exact fun h => (encode_of_decode h).symm
  · rintro ⟨hwf, rfl⟩
    exact decode_encode hwf

/-- Settles O1, from the fields of each command's word. -/
theorem decodeEncodeRoundTrip : Obligations.DecodeEncodeRoundTrip := fun _ => decode_encode

/-- Settles O2: a format's fields and its zero bits determine the word. -/
theorem encodeOfDecodedWord : Obligations.EncodeOfDecodedWord := fun _ _ => encode_of_decode

theorem decode_eq_ok_iff_toNat {w : Word} {i : Instr} :
    decode w = .ok i ↔ i.wf = true ∧ w.toNat = i.opcode.toNat * 2 ^ 28 + i.operandBits.toNat := by
  rw [decode_eq_ok_iff, ← encode_toNat, BitVec.toNat_inj, eq_comm (a := w)]

/-- Settles O4, from `decode_eq_ok_iff_toNat`, command by command. -/
theorem decodedFieldsAreTheFormatTables : Obligations.DecodedFieldsAreTheFormatTables := by
  refine ⟨fun w idx p f => ?_, fun w n => ?_, fun w => ?_, fun w => ?_, fun w => ?_, fun w => ?_⟩
  · rw [decode_eq_ok_iff_toNat, operandBits_wrstg, ← Nat.add_assoc, ← Nat.add_assoc]
    simp [Instr.wf, stagingIndexOk, Instr.opcode]
  · rw [decode_eq_ok_iff_toNat, operandBits_load]
    simp [Instr.wf, Instr.opcode]
  all_goals
    rw [decode_eq_ok_iff_toNat]
    simp [Instr.wf, Instr.opcode, Instr.operandBits]

/-- The case of R62 that each reason names, in arithmetic on the word's number. -/
def DecodeError.AppliesTo (n : Nat) : DecodeError → Prop
  | .reservedOpcode => n / 2 ^ 28 = 0 ∨ 7 ≤ n / 2 ^ 28
  | .stagingIndex => n / 2 ^ 28 = 1 ∧ 10 ≤ n / 2 ^ 24 % 16
  | .countReserved => n / 2 ^ 28 = 2 ∧ n / 2 ^ 8 % 2 ^ 20 ≠ 0
  | .operandReserved => 3 ≤ n / 2 ^ 28 ∧ n / 2 ^ 28 ≤ 6 ∧ n % 2 ^ 28 ≠ 0

theorem stagingIndexOk_field (w : Word) : stagingIndexOk (field w 24 4) = true ↔ w.toNat / 2 ^ 24 % 16 < 10 := by
  simp [stagingIndexOk, field_toNat]

theorem decodeW_eq_error {w : Word} {e : DecodeError} :
    decodeW w = .error e ↔ .stagingIndex = e ∧ 10 ≤ w.toNat / 2 ^ 24 % 16 := by
  have hidx := stagingIndexOk_field w
  unfold decodeW
  split <;> simp_all

theorem decodeN_eq_error {w : Word} {e : DecodeError} :
    decodeN w = .error e ↔ .countReserved = e ∧ w.toNat / 2 ^ 8 % 2 ^ 20 ≠ 0 := by
  simp only [decodeN, field_eq_zero]
  split <;> simp_all

theorem decodeZ_eq_error {w : Word} {i : Instr} {e : DecodeError} :
    decodeZ i w = .error e ↔ .operandReserved = e ∧ w.toNat % 2 ^ 28 ≠ 0 := by
  simp only [decodeZ, field_eq_zero, Nat.pow_zero, Nat.div_one]
  split <;> simp_all

/-- R62: a word is rejected under a reason's name exactly if that reason's case holds of its number. -/
theorem decode_eq_error_iff (w : Word) (e : DecodeError) : decode w = .error e ↔ e.AppliesTo w.toNat := by
  unfold decode
  rw [opcodeOf_toNat]
  split
  case h_1 hop =>
    rw [decodeW_eq_error]
    cases e <;> simp only [DecodeError.AppliesTo, hop] <;> simp
  case h_2 hop =>
    rw [decodeN_eq_error]
    cases e <;> simp only [DecodeError.AppliesTo, hop] <;> simp
  case h_3 hop | h_4 hop | h_5 hop | h_6 hop =>
    rw [decodeZ_eq_error]
    cases e <;> simp only [DecodeError.AppliesTo, hop] <;> simp
  case h_7 h1 h2 h3 h4 h5 h6 =>
    have hop : w.toNat / 2 ^ 28 = 0 ∨ 7 ≤ w.toNat / 2 ^ 28 := by
      simp only [imp_false] at h1 h2 h3 h4 h5 h6
      omega
    cases e <;> simp only [DecodeError.AppliesTo, reduceCtorEq, Except.error.injEq, true_iff, false_iff] <;> omega

theorem decode_ok_iff_no_error (w : Word) : (∃ i, decode w = .ok i) ↔ ∀ e : DecodeError, ¬ e.AppliesTo w.toNat := by
  simp only [← decode_eq_error_iff]
  cases decode w <;> simp

/-- Settles O3, from `decode_eq_error_iff` at each of the four reasons. -/
theorem illegalWordsAreExactlyTheFourCases : Obligations.IllegalWordsAreExactlyTheFourCases := by
  refine ⟨fun w => ⟨decode_eq_error_iff w _, decode_eq_error_iff w _, decode_eq_error_iff w _,
    decode_eq_error_iff w _, (decode_ok_iff_no_error w).trans ⟨?_, ?_⟩⟩, rfl⟩
  · exact fun h => ⟨h .reservedOpcode, h .stagingIndex, h .countReserved, h .operandReserved⟩
  · rintro ⟨hop, hidx, hcount, hoperand⟩ (_ | _ | _ | _)
    exacts [hop, hidx, hcount, hoperand]

end Sys2Proof

namespace Sys2Proof.Machine

/-! Words as bytes and as table numbers (30_encoding.md R46, R55; log 12). -/

theorem decodeBytes_bytesOfWord (w : Word) (rest : List Byte) :
    decodeBytes (bytesOfWord w ++ rest) = some (decode w, rest) :=
  congrArg (fun v => some (decode v, rest)) (wordOfBytes_byteOf w)

theorem tableWord_toNat (w : Word) : tableWord 32 w.toNat = w := by
  rw [tableWord, Nat.mod_eq_of_lt w.isLt, BitVec.ofNat_toNat, BitVec.setWidth_eq]

theorem decodeTableWord_of_decode {w : Word} {i : Instr} (h : decode w = .ok i) :
    decodeTableWord 32 w.toNat = some i := by
  have hbytes := decodeBytes_bytesOfWord w []
  rw [List.append_nil, h] at hbytes
  rw [decodeTableWord, tableWord_toNat, hbytes]

/-- Settles O7: both decoders come down to `decode` of the word, which `decode_encode` inverts. -/
theorem bytesOfCommandDecode : Obligations.BytesOfCommandDecode := by
  intro i hwf
  refine ⟨fun rest => ?_, decodeTableWord_of_decode (decode_encode hwf)⟩
  rw [decodeBytes_bytesOfWord, decode_encode hwf]

/-! Words written to CMD (30_encoding.md R60, R63). -/

theorem execWord_of_ok {w : Word} {i : Instr} (h : decode w = .ok i) (s : State) : execWord w s = exec i s := by
  rw [execWord, h]

theorem execWord_of_error {w : Word} {e : DecodeError} (h : decode w = .error e) (s : State) :
    execWord w s = .next (setIll true s) := by
  rw [execWord, h]
  rfl

/-- Every command completes in every state (R60, R104). -/
theorem exec_completes (i : Instr) (s : State) : ∃ t, exec i s = .next t := by
  cases i with
  | wrstg idx p f =>
    rcases Nat.lt_or_ge idx.toNat Config.max with h | h
    · exact ⟨_, exec_of_commandEffect (.wrstg idx p f h)⟩
    · exact ⟨_, exec_of_commandEffect (.wrstgIllegal idx p f h)⟩
  | load n => exact ⟨_, rfl⟩
  | start => exact ⟨_, rfl⟩
  | stop => exact ⟨_, rfl⟩
  | qrun => exact ⟨_, rfl⟩
  | qcap => exact ⟨_, rfl⟩

/-- A well-formed command leaves `ILL` 0: only the index check of `WRSTG` can set it (R62, R63). -/
theorem commandEffect_ill {s t : State} {i : Instr} (h : CommandEffect s i t) (hwf : i.wf = true) : t.ill = false := by
  cases h with
  | wrstgIllegal idx p f h =>
    simp only [Instr.wf, stagingIndexOk, decide_eq_true_eq] at hwf
    omega
  | wrstg | loadRefused | loadDone | startIgnored | startBegins | stop | qrun | qcap => rfl

/-- Settles O18: a word that decodes is a well-formed command's (`encode_of_decode`), which leaves `ILL` 0. -/
theorem execWritesIll : Obligations.ExecWritesIll := by
  intro w s
  constructor
  · rintro ⟨e, he⟩
    exact execWord_of_error he s
  · intro i hi
    obtain ⟨t, ht⟩ := exec_completes i s
    exact ⟨execWord_of_ok hi s, t, ht, commandEffect_ill (commandEffect_of_exec ht) (encode_of_decode hi).2⟩

/-- The host's turn with the write of a word to CMD pending. -/
theorem step_cmdWrite {s : State} {w : Word} {rest : List HostAccess} (ht : nextTurn s = .host)
    (hh : s.host = .write 0x0 4 w :: rest) : step s = execWord w { s with turns := s.turns.tail, host := rest } :=
  step_writeReg ht hh rfl

/-- Settles O39, from `step_cmdWrite`. -/
theorem stepRunsTheDecodedCommand : Obligations.StepRunsTheDecodedCommand :=
  fun _ _ _ _ ht hh hd => (step_cmdWrite ht hh).trans (execWord_of_ok hd _)

/-- Settles O40, from `step_cmdWrite`: the step takes off the turn and the access that `withFetchWord` put on. -/
theorem fetchedWordIsPerformedNext : Obligations.FetchedWordIsPerformedNext :=
  fun _ _ _ => step_cmdWrite rfl rfl

/-! The assembler's command lines (30_encoding.md R66, R67). -/

theorem asmWrstg_fits {idx pulses freq : Nat} (h : idx ≤ 15 ∧ pulses ≤ 255 ∧ freq ≤ 65535) :
    asmWrstg idx pulses freq =
      some (cmdOf (.wrstg (BitVec.ofNat 4 idx) (BitVec.ofNat 8 pulses) (BitVec.ofNat 16 freq))) := if_pos h

theorem asmLoad_fits {n : Nat} (h : n ≤ 255) : asmLoad n = some (cmdOf (.load (BitVec.ofNat 8 n))) := if_pos h

theorem encode_wrstg_ofNat {idx pulses freq : Nat} (h : idx ≤ 15 ∧ pulses ≤ 255 ∧ freq ≤ 65535) :
    (encode (.wrstg (BitVec.ofNat 4 idx) (BitVec.ofNat 8 pulses) (BitVec.ofNat 16 freq))).toNat =
      0x1 * 2 ^ 28 + idx * 2 ^ 24 + pulses * 2 ^ 16 + freq := by
  rw [encode_toNat, operandBits_wrstg]
  simp only [Instr.opcode, BitVec.ofNat_eq_ofNat, BitVec.toNat_ofNat]
  omega

theorem encode_load_ofNat {n : Nat} (h : n ≤ 255) :
    (encode (.load (BitVec.ofNat 8 n))).toNat = 0x2 * 2 ^ 28 + n := by
  rw [encode_toNat, operandBits_load]
  simp only [Instr.opcode, BitVec.ofNat_eq_ofNat, BitVec.toNat_ofNat]
  omega

/-- Settles O8: a line assembles exactly if its operands fit, and then to the write of its command's word. -/
theorem assemblerEncodesByTheTable : Obligations.AssemblerEncodesByTheTable := by
  refine ⟨fun idx pulses freq => ⟨fun h => ?_, fun h => ?_⟩, fun n => ⟨fun h => ?_, fun h => ?_⟩,
    rfl, rfl, rfl, rfl, rfl⟩
  · exact ⟨_, congrArg (Option.map ([·])) (asmWrstg_fits h), encode_wrstg_ofNat h⟩
  · exact congrArg (Option.map ([·])) (if_neg (by omega))
  · exact ⟨_, congrArg (Option.map ([·])) (asmLoad_fits h), encode_load_ofNat h⟩
  · exact congrArg (Option.map ([·])) (if_neg (by omega))

/-! A program of commands, run one a step (log 3). -/

/-- A program put on the host's list is seen by no command. -/
theorem commandEffect_withProgram {s t : State} {i : Instr} (ops : List AsmOp) (h : CommandEffect s i t) :
    CommandEffect (withProgram ops s) i (withProgram ops t) := by
  cases h with
  | wrstg idx p f h => exact .wrstg idx p f h
  | wrstgIllegal idx p f h => exact .wrstgIllegal idx p f h
  | loadRefused n h => exact .loadRefused n h
  | loadDone n hr hn => exact .loadDone n hr hn
  | startIgnored h => exact .startIgnored h
  | startBegins hs hr => exact .startBegins hs hr
  | stop => exact .stop
  | qrun => exact .qrun
  | qcap => exact .qcap

/-- The first command of a program takes the first step, and the rest of the program runs on from its effect. -/
theorem runSteps_withProgram_cmdOf {s t : State} {i : Instr} (ops : List AsmOp) (n : Nat) (hwf : i.wf = true)
    (h : CommandEffect s i t) :
    runSteps (n + 1) (withProgram (cmdOf i :: ops) s) = runSteps n (withProgram ops t) := by
  have hstep : step (withProgram (cmdOf i :: ops) s) = exec i (withProgram ops s) :=
    stepRunsTheDecodedCommand _ (encode i) i (programAccesses ops) rfl rfl (decode_encode hwf)
  exact runSteps_of_step (hstep.trans (exec_of_commandEffect (commandEffect_withProgram ops h)))

/-! `PLAY` (30_encoding.md R67). -/

/-- The burst of a pair of numbers that fit its fields. -/
def burstOf (b : Nat × Nat) : Burst := { pulses := BitVec.ofNat 8 b.1, freq := BitVec.ofNat 16 b.2 }

/-- The command that stages a burst of a `PLAY`. -/
def stagingCommand (idx : Nat) (b : Nat × Nat) : Instr :=
  .wrstg (BitVec.ofNat 4 idx) (burstOf b).pulses (burstOf b).freq

theorem stagingCommand_wf {idx : Nat} (h : idx < Config.max) (b : Nat × Nat) : (stagingCommand idx b).wf = true :=
  decide_eq_true ((ofNat_toNat_of_le_max h.le).trans_lt h)

theorem commandEffect_stagingCommand {idx : Nat} (h : idx < Config.max) (b : Nat × Nat) (s : State) :
    CommandEffect s (stagingCommand idx b) (writeStaging idx (burstOf b) (setIll false s)) := by
  have hidx : (BitVec.ofNat 4 idx).toNat = idx := ofNat_toNat_of_le_max h.le
  have heffect := CommandEffect.wrstg (s := s) (BitVec.ofNat 4 idx) (burstOf b).pulses (burstOf b).freq
    (hidx.trans_lt h)
  rwa [hidx] at heffect

/-- The effect of the `WRSTG` commands of a `PLAY`, from staging index `idx` on. -/
def stageFrom (idx : Nat) : List (Nat × Nat) → State → State
  | [], s => s
  | b :: bs, s => stageFrom (idx + 1) bs (writeStaging idx (burstOf b) (setIll false s))

theorem stageFrom_running (idx : Nat) (bursts : List (Nat × Nat)) (s : State) :
    (stageFrom idx bursts s).running = s.running := by
  induction bursts generalizing idx s with
  | nil => rfl
  | cons b bs ih => exact ih _ _

/-- Staging from `idx` on leaves the entries below `idx`. -/
theorem stageFrom_getElem_below {idx j : Nat} (bursts : List (Nat × Nat)) (s : State) (hj : j < Config.max)
    (h : j < idx) : (stageFrom idx bursts s).stg[j] = s.stg[j] := by
  induction bursts generalizing idx s with
  | nil => rfl
  | cons b bs ih =>
    rw [stageFrom, ih _ (by omega), writeStaging_getElem, if_neg (by omega)]
    rfl

theorem stageFrom_getElem {idx i : Nat} (bursts : List (Nat × Nat)) (s : State) (hi : i < bursts.length)
    (hmax : idx + i < Config.max) : (stageFrom idx bursts s).stg[idx + i] = burstOf bursts[i] := by
  induction bursts generalizing idx i s with
  | nil => simp at hi
  | cons b bs ih =>
    cases i with
    | zero =>
      rw [stageFrom, stageFrom_getElem_below bs _ hmax (by omega), writeStaging_getElem, if_pos (by omega)]
      rfl
    | succ i =>
      have := ih (idx := idx + 1) (i := i) (writeStaging idx (burstOf b) (setIll false s)) (by simpa using hi)
        (by omega)
      simpa only [stageFrom, List.getElem_cons_succ, Nat.add_right_comm, Nat.add_assoc] using this

/-- The bursts of a `PLAY` that fit the staging buffer assemble to one `WRSTG` each, and running these stages them. -/
theorem playWrites_stages {idx : Nat} {bursts : List (Nat × Nat)} (hlen : idx + bursts.length ≤ Config.max)
    (hfit : ∀ b ∈ bursts, b.1 ≤ 255 ∧ b.2 ≤ 65535) :
    ∃ ops, playWrites idx bursts = some ops ∧ ops.length = bursts.length ∧
      ∀ more n s, runSteps (n + bursts.length) (withProgram (ops ++ more) s) =
        runSteps n (withProgram more (stageFrom idx bursts s)) := by
  induction bursts generalizing idx with
  | nil => exact ⟨[], rfl, rfl, fun _ _ _ => rfl⟩
  | cons b bs ih =>
    obtain ⟨hb, hbs⟩ := List.forall_mem_cons.mp hfit
    rw [List.length_cons] at hlen
    have hidx : idx < Config.max := by omega
    obtain ⟨ops, hops, hlength, hrun⟩ := ih (idx := idx + 1) (by omega) hbs
    refine ⟨cmdOf (stagingCommand idx b) :: ops, ?_, congrArg (· + 1) hlength, fun more n s => ?_⟩
    · rw [playWrites, asmWrstg_fits ⟨Nat.le_of_lt (hidx.trans (by decide)), hb⟩, hops]
      rfl
    · exact (runSteps_withProgram_cmdOf (ops ++ more) (n + bs.length) (stagingCommand_wf hidx b)
        (commandEffect_stagingCommand hidx b s)).trans (hrun more n _)

/-- `LOAD` of the number of bursts of a `PLAY` in an Idle block succeeds. -/
theorem commandEffect_load_ofNat {n : Nat} {s : State} (hn : n ≤ Config.max) (hr : s.running = false) :
    CommandEffect s (.load (BitVec.ofNat 8 n)) (setResult 1 (commitStaging n (setIll false s))) := by
  have hcount : (BitVec.ofNat 8 n).toNat = n := Nat.mod_eq_of_lt (hn.trans_lt (by decide))
  have heffect := CommandEffect.loadDone (s := s) (BitVec.ofNat 8 n) hr (hcount.trans_le hn)
  rwa [hcount] at heffect

/-- `START` in an Idle block at cursor 0 leaves the buffer and the cursor, and starts exactly if there is a burst. -/
theorem commandEffect_start_idle {s t : State} (h : CommandEffect s .start t) (hr : s.running = false)
    (hc : s.cursor = 0) :
    t.buf = s.buf ∧ t.size = s.size ∧ t.result = s.result ∧ t.cursor = 0 ∧
      t.running = decide (0 < s.size.toNat) := by
  cases h with
  | startIgnored h =>
    have hsize : s.size = 0 := h.resolve_right (by simp [hr])
    exact ⟨rfl, rfl, rfl, hc, by simp [hr, hsize]⟩
  | startBegins hs _ =>
    exact ⟨rfl, rfl, rfl, rfl, (decide_eq_true (BitVec.toNat_pos_of_ne_zero hs)).symm⟩

/-- `PLAY` of at most `MAX` bursts that fit: its operations, and the state they lead to from an Idle block, by the
effects of its commands. -/
theorem asmPlay_runs {bursts : List (Nat × Nat)} {s : State} (hlen : bursts.length ≤ Config.max)
    (hfit : ∀ b ∈ bursts, b.1 ≤ 255 ∧ b.2 ≤ 65535) (hr : s.running = false) :
    ∃ ops t, asmPlay bursts = some ops ∧ ops.length = bursts.length + 2 ∧
      runSteps ops.length (withProgram ops s) = .next (withProgram [] t) ∧
      CommandEffect (setResult 1 (commitStaging bursts.length (setIll false (stageFrom 0 bursts s)))) .start t := by
  obtain ⟨writes, hwrites, hlength, hrun⟩ := playWrites_stages (idx := 0) (by omega) hfit
  obtain ⟨t, ht⟩ := exec_completes .start
    (setResult 1 (commitStaging bursts.length (setIll false (stageFrom 0 bursts s))))
  have hstart := commandEffect_of_exec ht
  have hload := commandEffect_load_ofNat hlen ((stageFrom_running 0 bursts s).trans hr)
  refine ⟨writes ++ [cmdOf (.load (BitVec.ofNat 8 bursts.length)), cmdOf .start], t, ?_, ?_, ?_, hstart⟩
  · rw [asmPlay, if_pos hlen, hwrites, asmLoad_fits (hlen.trans (by decide))]
  · rw [List.length_append, hlength]
    rfl
  · rw [List.length_append, hlength, Nat.add_comm]
    calc runSteps (2 + bursts.length) _
      _ = runSteps 2 _ := hrun _ 2 s
      _ = runSteps 1 _ := runSteps_withProgram_cmdOf _ 1 rfl hload
      _ = runSteps 0 _ := runSteps_withProgram_cmdOf _ 0 rfl hstart
      _ = _ := runSteps_zero _

/-- Settles O9: the run stages the bursts, loads them and starts (`asmPlay_runs`), and each of the three says what it
leaves in the fields. -/
theorem playLoadsAndStarts : Obligations.PlayLoadsAndStarts := by
  refine ⟨fun bursts h => if_neg (Nat.not_le.mpr h), fun bursts s hlen hfit hr => ?_⟩
  obtain ⟨ops, t, hasm, hlength, hrun, hstart⟩ := asmPlay_runs hlen hfit hr
  obtain ⟨hbuf, hsize, hresult, hcursor, hrunning⟩ :=
    commandEffect_start_idle hstart ((stageFrom_running 0 bursts s).trans hr) rfl
  have hcount : (BitVec.ofNat 4 bursts.length).toNat = bursts.length := ofNat_toNat_of_le_max hlen
  refine ⟨ops, withProgram [] t, hasm, hlength, hrun, fun i hi => ?_, ?_, hresult, hcursor, ?_, rfl, rfl⟩
  · have hmax : i < Config.max := hi.trans_le hlen
    calc burstAt (withProgram [] t) i
      _ = t.buf[i] := burstAt_eq _ i hmax
      _ = (stageFrom 0 bursts s).stg[i] := by simp [hbuf, hi]
      _ = (stageFrom 0 bursts s).stg[0 + i] := by simp only [Nat.zero_add]
      _ = burstOf bursts[i] := stageFrom_getElem bursts s hi (by omega)
  · exact (congrArg BitVec.toNat hsize).trans hcount
  · rw [← hcount]
    exact hrunning

end Sys2Proof.Machine

namespace Sys2Proof.Machine

/-! The staging buffer over whole runs (10_state.md R21; 40_buffer_load.md R72). -/

/-- The host's turn performs a command only by the write of its word to CMD at the head of the pending accesses. -/
theorem hostKind_eq_command {accesses : List HostAccess} {i : Instr} (h : hostKind accesses = .command i) :
    ∃ off n v rest, accesses = .write off n v :: rest ∧ portReg off n = some .cmd ∧ decode v = .ok i := by
  unfold hostKind at h
  split at h
  case h_1 off n v rest =>
    split at h
    case h_1 hr =>
      split at h
      case h_1 j hd =>
        cases h
        exact ⟨off, n, v, rest, rfl, hr, hd⟩
      case h_2 => cases h
    case h_2 => cases h
  case h_2 => cases h

theorem nextTurn_of_stepKind_command {s : State} {i : Instr} (h : stepKind s = .command i) : nextTurn s = .host := by
  cases ht : nextTurn s with
  | host => rfl
  | timer => simp [stepKind_timer ht] at h
  | irq src =>
    simp only [stepKind, ht] at h
    split at h <;> cases h
  | simulated => simp [stepKind_simulated ht] at h
  | reset => simp [stepKind_reset ht] at h

/-- A command that no pending access performs is not the next step. -/
theorem noCommand_stepKind {bad : Instr → Bool} {s : State} {i : Instr} (hn : NoCommand bad s.host)
    (hk : stepKind s = .command i) : bad i = false := by
  rw [stepKind_host (nextTurn_of_stepKind_command hk)] at hk
  obtain ⟨off, n, v, rest, hh, hr, hd⟩ := hostKind_eq_command hk
  exact noCommand_head hn hh hr hd

/-- The row of R42's table for `STG` (O46): a step that is neither a `WRSTG` nor a reset keeps the staging buffer. -/
theorem stepEffect_stg {bad : Instr → Bool} {s t : State} (hbad : ∀ idx p f, bad (.wrstg idx p f) = true)
    (h : StepEffect s t) (hn : NoCommand bad s.host) (hr : Turn.reset ∉ s.turns) : t.stg = s.stg := by
  obtain ⟨-, -, -, hstg, -⟩ := onlyNamedStepsWriteEachField s t (step_of_stepEffect h)
  by_contra hne
  rcases hstg hne with hk | ⟨idx, p, f, hk⟩
  · exact nextTurn_ne (by decide) hr (nextTurn_of_stepKind_reset hk)
  · have hok := noCommand_stepKind hn hk
    simp [hbad] at hok

/-- With no `WRSTG` and no reset to come, a run keeps the staging buffer: each step keeps it and brings neither. -/
theorem runSteps_stg {bad : Instr → Bool} {k : Nat} {s t : State} (hbad : ∀ idx p f, bad (.wrstg idx p f) = true)
    (hn : NoCommand bad s.host) (hr : Turn.reset ∉ s.turns) (hrun : runSteps k s = .next t) : t.stg = s.stg := by
  have hkept : NoCommand bad t.host ∧ Turn.reset ∉ t.turns ∧ t.stg = s.stg := by
    refine run_induction (P := fun u => NoCommand bad u.host ∧ Turn.reset ∉ u.turns ∧ u.stg = s.stg) ?_ k s t
      ⟨hn, hr, rfl⟩ hrun
    rintro u u' ⟨hnu, hru, hstg⟩ he
    exact ⟨noCommand_step he hnu, notMem_turns_step he hru, (stepEffect_stg hbad he hnu hru).trans hstg⟩
  obtain ⟨-, -, hstg⟩ := hkept
  exact hstg

/-- Settles O49, from `runSteps_stg`: the premise bars every `WRSTG`. -/
theorem stagingSurvivesEverythingElse : Obligations.StagingSurvivesEverythingElse :=
  fun _ _ _ hn hr hrun => runSteps_stg (fun _ _ _ => rfl) hn hr hrun

/-! `WRSTG` and `LOAD` (40_buffer_load.md R68, R69, R71). -/

/-- Settles O10: the number of the word decides between R57's command and R62's case (b), and the command's effect is
one staging write. -/
theorem wrstgWritesOneStagingEntry : Obligations.WrstgWritesOneStagingEntry := by
  intro idx p f s w hw
  obtain ⟨hdecode, -⟩ := decodedFieldsAreTheFormatTables
  constructor
  · intro hidx
    refine ⟨(hdecode w idx p f).mpr ⟨hidx, hw⟩, _, exec_of_commandEffect (.wrstg idx p f hidx), fun i hi => ?_, rfl⟩
    exact (writeStaging_getElem _ _ (setIll false s) i hi).trans (if_congr eq_comm rfl rfl)
  · intro hidx
    have hillegal : decode w = .error .stagingIndex := by
      have hten : 10 ≤ idx.toNat := hidx
      have := idx.isLt
      have := p.isLt
      have := f.isLt
      rw [decode_eq_error_iff, DecodeError.AppliesTo]
      omega
    exact ⟨hillegal, execWord_of_error hillegal s⟩

/-- R58: the sum of the opcode and the count is the word of `LOAD`. -/
theorem decode_load_ofNat (n : BitVec 8) : decode (BitVec.ofNat 32 (0x2 * 2 ^ 28 + n.toNat)) = .ok (.load n) := by
  obtain ⟨-, hdecode, -⟩ := decodedFieldsAreTheFormatTables
  have := n.isLt
  rw [hdecode, BitVec.toNat_ofNat]
  omega

/-- Settles O11: a `LOAD` is refused or done, and each of the two says in which states it happens. -/
theorem loadCommitsOrRefuses : Obligations.LoadCommitsOrRefuses := by
  intro n s
  obtain ⟨t, ht⟩ := exec_completes (.load n) s
  refine ⟨decode_load_ofNat n, t, ht, ?_⟩
  cases commandEffect_of_exec ht with
  | loadRefused _ h =>
    refine ⟨fun _ => rfl, fun _ _ => rfl, fun hidle hfits => ?_⟩
    rcases h with hrunning | hlong
    · simp [hidle] at hrunning
    · exact absurd hfits (Nat.not_le.mpr hlong)
  | loadDone _ hidle hfits =>
    refine ⟨fun hrunning => ?_, fun _ hlong => absurd hfits (Nat.not_le.mpr hlong), fun _ _ => ?_⟩
    · simp [hidle] at hrunning
    · exact ⟨ofNat_toNat_of_le_max hfits, fun i hi => commitStaging_getElem _ (setIll false s) i hi, rfl⟩

/-- Settles O12: `RESULT` 0 excludes the `LOAD` that succeeds, which answers 1. -/
theorem failedLoadChangesOnlyResultAndIll : Obligations.FailedLoadChangesOnlyResultAndIll := by
  constructor
  · intro n s t ht hresult
    cases commandEffect_of_exec ht with
    | loadRefused => rfl
    | loadDone => simp at hresult
  · exact fun n s hlong => ⟨_, exec_of_commandEffect (.loadRefused n (.inr hlong)), rfl⟩

end Sys2Proof.Machine

namespace Sys2Proof.Machine

/-! `START`, `STOP` and the queries (41_playback_control.md R73 to R76, R79). -/

/-- Settles O13: a `START` is ignored or begins, and each of the two says in which states it happens. -/
theorem startBeginsAtBurstZero : Obligations.StartBeginsAtBurstZero := by
  refine ⟨decode_encode (i := .start) rfl, fun s => ?_⟩
  obtain ⟨t, ht⟩ := exec_completes .start s
  refine ⟨t, ht, ?_⟩
  cases commandEffect_of_exec ht with
  | startIgnored h => exact ⟨fun _ => rfl, fun hsize hidle => absurd (h.resolve_left hsize) (by simp [hidle])⟩
  | startBegins hsize hidle =>
    refine ⟨fun h => absurd (h.resolve_left hsize) (by simp [hidle]), fun _ _ => ?_⟩
    rw [burstAt_eq s 0 (by decide)]
    rfl

/-- Settles O14: `STOP` has one effect, in every state. -/
theorem stopDisarmsAlways : Obligations.StopDisarmsAlways :=
  ⟨decode_encode (i := .stop) rfl, fun _ => ⟨_, exec_of_commandEffect .stop, rfl, rfl, rfl, rfl, rfl⟩⟩

/-- Settles O15: each query has one effect, in every state; `QRUN`'s answer is `RUNNING` as a number. -/
theorem queriesAnswerInResult : Obligations.QueriesAnswerInResult :=
  ⟨⟨decode_encode (i := .qrun) rfl, decode_encode (i := .qcap) rfl⟩, fun s =>
    ⟨⟨_, exec_of_commandEffect .qrun, flagWord_toNat s.running, rfl⟩, ⟨_, exec_of_commandEffect .qcap, rfl, rfl⟩⟩⟩

/-- Settles O16: after a `STOP` the flags that a second one clears are clear already. -/
theorem stopTwiceAddsOnlyOneDisarm : Obligations.StopTwiceAddsOnlyOneDisarm := by
  intro s t h
  cases commandEffect_of_exec h with
  | stop => exact ⟨_, exec_of_commandEffect .stop, rfl⟩

/-! The transition table (41_playback_control.md R77). -/

/-- The rows of R77's table for the commands. -/
theorem commandEffect_transition {s t : State} {i : Instr} (h : CommandEffect s i t) :
    t.running = runningAfter (.command i) s ∧ t.cursor.toNat = cursorAfter (.command i) s ∧
      t.tlog = s.tlog ++ logAppended (.command i) s := by
  cases h with
  | wrstg | wrstgIllegal | qrun | qcap => exact ⟨rfl, rfl, (List.append_nil _).symm⟩
  | stop => exact ⟨rfl, rfl, rfl⟩
  | loadRefused n h =>
    have hrefused : ¬ (s.running = false ∧ n.toNat ≤ Config.max) := by
      rintro ⟨hidle, hfits⟩
      exact h.elim (by simp [hidle]) (Nat.not_lt.mpr hfits)
    exact ⟨rfl, (if_neg hrefused).symm, (List.append_nil _).symm⟩
  | loadDone n hidle hfits => exact ⟨rfl, (if_pos ⟨hidle, hfits⟩).symm, (List.append_nil _).symm⟩
  | startIgnored h =>
    rcases h with hsize | hrunning
    · simp [runningAfter, cursorAfter, logAppended, hsize]
    · simp [runningAfter, cursorAfter, logAppended, hrunning]
  | startBegins hsize hidle =>
    have hpos : 0 < s.size.toNat := BitVec.toNat_pos_of_ne_zero hsize
    simp [runningAfter, cursorAfter, logAppended, hidle, hpos]

/-- The row of R77's table for a completion. The invariant keeps `CURSOR` from wrapping. -/
theorem complete_transition {s : State} (h : Inv s) :
    (complete s).running = runningAfter .completion s ∧ (complete s).cursor.toNat = cursorAfter .completion s ∧
      (complete s).tlog = s.tlog ++ logAppended .completion s := by
  rcases complete_cases s with ⟨hidle, he⟩ | ⟨hrunning, hlast, he⟩ | ⟨hrunning, hnext, he⟩
  · rw [he]
    simp [runningAfter, cursorAfter, logAppended, hidle]
  · rw [he]
    simp [stopBody, runningAfter, cursorAfter, logAppended, hrunning, Nat.not_lt.mpr hlast,
      cursor_succ_toNat h hrunning]
  · rw [he]
    simp [runningAfter, cursorAfter, logAppended, hrunning, hnext, cursor_succ_toNat h hrunning]

theorem bridgeStep_transition {s : State} (h : Inv s) :
    (bridgeStep s).running = runningAfter .completion s ∧ (bridgeStep s).cursor.toNat = cursorAfter .completion s ∧
      (bridgeStep s).tlog = s.tlog ++ logAppended .completion s :=
  complete_transition (s := { s with tpend := false }) { h with idle_tpend := fun _ => rfl }

/-- Settles O47: the rows for commands and completions are `commandEffect_transition` and `bridgeStep_transition`, and
the steps of the other rows, reset apart, change none of the three fields. -/
theorem transitionTable : Obligations.TransitionTable := by
  intro s t h hs
  have hk := kindEffect_of_stepEffect (stepEffect_of_step hs)
  generalize stepKind s = k at *
  cases hk with
  | command rest i _ he =>
    obtain ⟨hrunning, hcursor, hlog⟩ := commandEffect_transition he
    exact ⟨hrunning, hcursor, fun _ => hlog⟩
  | completion =>
    obtain ⟨hrunning, hcursor, hlog⟩ := bridgeStep_transition (s := afterTurn s) { h with }
    exact ⟨hrunning, hcursor, fun _ => hlog⟩
  | illegalWord | otherEntry => exact ⟨rfl, rfl, fun _ => (List.append_nil _).symm⟩
  | hostOther _ hsame => rw [hsame]; exact ⟨rfl, rfl, fun _ => (List.append_nil _).symm⟩
  | timer => rw [timerTurn_eq]; exact ⟨rfl, rfl, fun _ => (List.append_nil _).symm⟩
  | reset => exact ⟨rfl, rfl, fun hne => absurd rfl hne⟩

end Sys2Proof.Machine

namespace Sys2Proof.Machine

/-! After `STOP` (41_playback_control.md R74, R79). -/

/-- What holds from a state `s` after `STOP` on, as long as no `START` and no reset comes: playback is off, and the
timer keeps the values it had. -/
structure Stopped (s t : State) : Prop where
  running : t.running = false
  tie : t.tie = false
  tpend : t.tpend = false
  tarr : t.tarr = s.tarr
  trcr : t.trcr = s.trcr

/-- The state after a `STOP`. -/
theorem stopped_of_stop {s t : State} (h : CommandEffect s .stop t) : Stopped t t := by
  cases h with
  | stop => exact ⟨rfl, rfl, rfl, rfl, rfl⟩

/-- While Idle a bridge step only drops the request (R98). -/
theorem bridgeStep_idle {s : State} (h : s.running = false) : bridgeStep s = { s with tpend := false } :=
  complete_idle (s := { s with tpend := false }) h

theorem stepKind_ne_reset {s : State} (h : Turn.reset ∉ s.turns) : stepKind s ≠ .reset :=
  fun hk => nextTurn_ne (by decide) h (nextTurn_of_stepKind_reset hk)

/-- Neither `START` nor a system reset is the next step. -/
theorem stepKind_of_notRestarted {s : State} (h : NotRestarted s) :
    stepKind s ≠ .command .start ∧ stepKind s ≠ .reset := by
  obtain ⟨hn, hr⟩ := h
  exact ⟨fun hk => (nomatch noCommand_stepKind hn hk), stepKind_ne_reset hr⟩

/-- A command other than `START` keeps a stopped block stopped; other than `LOAD`, it keeps `CURSOR` and `BUF`. -/
theorem commandEffect_stopped {r s t : State} {i : Instr} (he : CommandEffect s i t) (hi : i ≠ .start)
    (h : Stopped r s) : Stopped r t ∧ ((∀ n, i ≠ .load n) → t.cursor = s.cursor ∧ t.buf = s.buf) := by
  cases he with
  | wrstg | wrstgIllegal | loadRefused | qrun | qcap => exact ⟨{ h with }, fun _ => ⟨rfl, rfl⟩⟩
  | loadDone n => exact ⟨{ h with }, fun hn => absurd rfl (hn n)⟩
  | startIgnored | startBegins => exact absurd rfl hi
  | stop => exact ⟨{ h with running := rfl, tie := rfl, tpend := rfl }, fun _ => ⟨rfl, rfl⟩⟩

/-- Every step other than a `START` and a reset keeps a stopped block stopped, whatever completion is raised or
simulated; other than a `LOAD`, it keeps `CURSOR` and `BUF`. -/
theorem kindEffect_stopped {r s t : State} {k : StepKind} (he : KindEffect s k t) (hstart : k ≠ .command .start)
    (hreset : k ≠ .reset) (h : Stopped r s) :
    Stopped r t ∧ ((∀ n, k ≠ .command (.load n)) → t.cursor = s.cursor ∧ t.buf = s.buf) := by
  cases he with
  | command rest i _ hc =>
    obtain ⟨hstopped, hkept⟩ := commandEffect_stopped hc (fun hi => hstart (congrArg _ hi)) { h with }
    exact ⟨hstopped, fun hn => hkept fun n hi => hn n (congrArg _ hi)⟩
  | illegalWord | otherEntry => exact ⟨{ h with }, fun _ => ⟨rfl, rfl⟩⟩
  | hostOther _ hsame => rw [hsame]; exact ⟨{ h with }, fun _ => ⟨rfl, rfl⟩⟩
  | timer =>
    have hturn : timerTurn (afterTurn s) = afterTurn s := if_neg (by simp [h.tie])
    rw [hturn]
    exact ⟨{ h with }, fun _ => ⟨rfl, rfl⟩⟩
  | completion =>
    rw [bridgeStep_idle (s := afterTurn s) h.running]
    exact ⟨{ h with tpend := rfl }, fun _ => ⟨rfl, rfl⟩⟩
  | reset => exact absurd rfl hreset

/-- What `NotRestarted` bars stays barred. -/
theorem notRestarted_step {s t : State} (he : StepEffect s t) (h : NotRestarted s) : NotRestarted t :=
  h.imp (noCommand_step he) (notMem_turns_step he)

/-- The command is `LOAD`, which O52 and O53 bar where they speak of `CURSOR` and `BUF`. -/
def isLoadCmd : Instr → Bool
  | .load _ => true
  | .wrstg _ _ _ | .start | .stop | .qrun | .qcap => false

theorem stepKind_of_noLoad {s : State} (h : NoCommand isLoadCmd s.host) (n : BitVec 8) :
    stepKind s ≠ .command (.load n) :=
  fun hk => nomatch noCommand_stepKind h hk

/-- The state `t` of a run from a stopped state `s`, with no `START` and no reset to come; if no `LOAD` was to come in
`s`, none is in `t`, and `CURSOR` and `BUF` are the same. -/
structure StoppedRun (s t : State) : Prop where
  notRestarted : NotRestarted t
  stopped : Stopped s t
  noLoad : NoCommand isLoadCmd s.host → NoCommand isLoadCmd t.host
  keeps : NoCommand isLoadCmd s.host → t.cursor = s.cursor ∧ t.buf = s.buf

theorem stoppedRun_step {s t u : State} (h : StoppedRun s t) (he : StepEffect t u) : StoppedRun s u := by
  obtain ⟨hstart, hreset⟩ := stepKind_of_notRestarted h.notRestarted
  obtain ⟨hstopped, hstep⟩ := kindEffect_stopped (kindEffect_of_stepEffect he) hstart hreset h.stopped
  refine ⟨notRestarted_step he h.notRestarted, hstopped, noCommand_step he ∘ h.noLoad, fun hload => ?_⟩
  obtain ⟨hcursor, hbuf⟩ := h.keeps hload
  obtain ⟨hcursor', hbuf'⟩ := hstep (stepKind_of_noLoad (h.noLoad hload))
  exact ⟨hcursor'.trans hcursor, hbuf'.trans hbuf⟩

/-- Settles O53: the state after `STOP` is a stopped one, and every step of the run keeps it so (`stoppedRun_step`). -/
theorem nothingAdvancesAfterStop : Obligations.NothingAdvancesAfterStop := by
  intro n s t u hstop hn hrun
  have hbegun : StoppedRun t t := ⟨hn, stopped_of_stop (commandEffect_of_exec hstop), id, fun _ => ⟨rfl, rfl⟩⟩
  obtain ⟨-, ⟨hrunning, htie, htpend, htarr, htrcr⟩, -, hkeeps⟩ :=
    run_induction (fun _ _ => stoppedRun_step) n t u hbegun hrun
  exact ⟨hrunning, ⟨htarr, htrcr, htie, htpend⟩, hkeeps⟩

end Sys2Proof.Machine

namespace Sys2Proof.Machine

/-! Playback from a `START` (41_playback_control.md R78; 43_completion.md R99 to R101). -/

theorem playbackLog_zero {s : State} {k : Nat} (hk : 0 < k) : playbackLog s k 0 = [progOf (burstAt s 0)] := by
  simp [playbackLog, Nat.not_le.mpr hk]

/-- A completion with bursts left appends the next one. -/
theorem playbackLog_succ_next {s : State} {k j : Nat} (h : j + 1 < k) :
    playbackLog s k (j + 1) = playbackLog s k j ++ [progOf (burstAt s (j + 1))] := by
  have hj : min j (k - 1) = j := by omega
  have hj' : min (j + 1) (k - 1) = j + 1 := by omega
  simp only [playbackLog, hj, hj', if_neg (Nat.not_le.mpr h), if_neg (Nat.not_le.mpr (Nat.lt_of_succ_lt h)),
    List.append_nil, List.range_succ, List.map_append, List.map_cons, List.map_nil]

/-- The completion of the last burst appends `Disarm`. -/
theorem playbackLog_succ_last {s : State} {k j : Nat} (h : j + 1 = k) :
    playbackLog s k (j + 1) = playbackLog s k j ++ [.disarm] := by
  subst h
  simp [playbackLog]

/-- After the last burst the history is complete. -/
theorem playbackLog_succ_ended {s : State} {k j : Nat} (h : k ≤ j) : playbackLog s k (j + 1) = playbackLog s k j := by
  have hj : min j (k - 1) = k - 1 := by omega
  have hj' : min (j + 1) (k - 1) = k - 1 := by omega
  simp only [playbackLog, hj, hj', if_pos h, if_pos (Nat.le_succ_of_le h)]

theorem playbackLog_all {s : State} {k : Nat} (hk : 0 < k) :
    playbackLog s k k = (List.range k).map (fun i => progOf (burstAt s i)) ++ [.disarm] := by
  have hmin : min k (k - 1) + 1 = k := by omega
  rw [playbackLog, hmin, if_pos le_rfl]

/-- Where playback of the bursts of `s` stands after a `START` and `j` accepted completions, the `SIZE` bursts
being over at `j = SIZE`. -/
structure PlayedTo (s : State) (j : Nat) (u : State) : Prop where
  log : u.tlog = s.tlog ++ playbackLog s s.size.toNat j
  running : u.running = decide (j < s.size.toNat)
  place : j < s.size.toNat → u.cursor.toNat = j ∧ u.size = s.size ∧ u.buf = s.buf

/-- A `START` that begins playback. -/
theorem playedTo_of_start {s t : State} (h : CommandEffect s .start t) (hidle : s.running = false)
    (hsize : 0 < s.size.toNat) : PlayedTo s 0 t := by
  cases h with
  | startIgnored h =>
    rcases h with h | h
    · simp [h] at hsize
    · simp [hidle] at h
  | startBegins =>
    exact ⟨by rw [playbackLog_zero hsize]; rfl, (decide_eq_true hsize).symm, fun _ => ⟨rfl, rfl, rfl⟩⟩

/-- What `Undisturbed` bars stays barred. -/
theorem undisturbed_step {s t : State} (he : StepEffect s t) (h : Undisturbed s) : Undisturbed t :=
  h.imp (noCommand_step he) (notMem_turns_step he)

/-- The rows of R77's table an undisturbed step can be of, completions apart: mode and history stay, and while
Running the cursor stays. -/
theorem transition_undisturbed {s : State} (hu : Undisturbed s) (hk : stepKind s ≠ .completion) :
    runningAfter (stepKind s) s = s.running ∧ logAppended (stepKind s) s = [] ∧
      (s.running = true → cursorAfter (stepKind s) s = s.cursor.toNat) := by
  obtain ⟨hn, hr⟩ := hu
  have hcommand (i : Instr) (h : stepKind s = .command i) : startsOrStops i = false := noCommand_stepKind hn h
  have hreset := stepKind_ne_reset hr
  generalize stepKind s = k at *
  cases k with
  | command i =>
    cases i with
    | start => cases hcommand _ rfl
    | stop => cases hcommand _ rfl
    | load n => exact ⟨rfl, rfl, fun hr => if_neg (by simp [hr])⟩
    | wrstg | qrun | qcap => exact ⟨rfl, rfl, fun _ => rfl⟩
  | completion => exact absurd rfl hk
  | reset => exact absurd rfl hreset
  | illegalWord | hostOther | timer | otherEntry => exact ⟨rfl, rfl, fun _ => rfl⟩

/-- The row of R77's table for a completion, as a step from `j` completions to `j + 1`. -/
theorem transition_completion {s u : State} {j : Nat} (h : PlayedTo s j u) :
    runningAfter .completion u = decide (j + 1 < s.size.toNat) ∧
      playbackLog s s.size.toNat j ++ logAppended .completion u = playbackLog s s.size.toNat (j + 1) ∧
      (j + 1 < s.size.toNat → cursorAfter .completion u = j + 1) := by
  rcases Nat.lt_or_ge j s.size.toNat with hj | hj
  · have hrunning : u.running = true := h.running.trans (decide_eq_true hj)
    obtain ⟨hcursor, hsize, hbuf⟩ := h.place hj
    simp only [runningAfter, logAppended, cursorAfter, hrunning, hcursor, hsize, burstAt_congr hbuf]
    refine ⟨Bool.true_and _, ?_, fun _ => rfl⟩
    rcases Nat.lt_or_ge (j + 1) s.size.toNat with hnext | hlast
    · simp [hnext, playbackLog_succ_next hnext]
    · simp [Nat.not_lt.mpr hlast, playbackLog_succ_last (Nat.le_antisymm hj hlast)]
  · have hidle : u.running = false := h.running.trans (decide_eq_false (Nat.not_lt.mpr hj))
    have hend : ¬ j + 1 < s.size.toNat := by omega
    simp [runningAfter, logAppended, hidle, hend, playbackLog_succ_ended hj]

/-- An undisturbed step counts one completion further if it is one, and otherwise leaves playback where it stands. -/
theorem playedTo_step {s u v : State} {j : Nat} (h : PlayedTo s j u) (hinv : Inv u) (hu : Undisturbed u)
    (hs : step u = .next v) : PlayedTo s (j + if stepKind u = .completion then 1 else 0) v := by
  obtain ⟨hrunning, hcursor, hlog⟩ := transitionTable u v hinv hs
  have hlog := hlog (stepKind_ne_reset hu.2)
  have hfixed (hj : j < s.size.toNat) : v.size = s.size ∧ v.buf = s.buf := by
    obtain ⟨-, hsize, hbuf⟩ := h.place hj
    obtain ⟨hbuf', hsize'⟩ :=
      bufferFixedWhileRunning u v hs (h.running.trans (decide_eq_true hj)) (nextTurn_ne (by decide) hu.2)
    exact ⟨hsize'.trans hsize, hbuf'.trans hbuf⟩
  rw [h.log, List.append_assoc] at hlog
  split
  case isTrue hk =>
    obtain ⟨hrun, happ, hcur⟩ := transition_completion h
    rw [hk] at hrunning hcursor hlog
    rw [happ] at hlog
    exact ⟨hlog, hrunning.trans hrun, fun hj => ⟨hcursor.trans (hcur hj), hfixed (Nat.lt_of_succ_lt hj)⟩⟩
  case isFalse hk =>
    obtain ⟨hrun, happ, hcur⟩ := transition_undisturbed hu hk
    rw [happ, List.append_nil] at hlog
    refine ⟨hlog, hrunning.trans (hrun.trans h.running), fun hj => ?_⟩
    obtain ⟨hplace, -⟩ := h.place hj
    exact ⟨(hcursor.trans (hcur (h.running.trans (decide_eq_true hj)))).trans hplace, hfixed hj⟩

theorem completionsTaken_of_step {n : Nat} {s t : State} (h : step s = .next t) :
    completionsTaken (n + 1) s = (if stepKind s = .completion then 1 else 0) + completionsTaken n t := by
  rw [completionsTaken, h]

/-- An undisturbed run advances playback by the completions it takes. -/
theorem runSteps_playedTo {n j : Nat} {s u v : State} (h : PlayedTo s j u) (hinv : Inv u) (hu : Undisturbed u)
    (hrun : runSteps n u = .next v) : PlayedTo s (j + completionsTaken n u) v := by
  induction n generalizing j u with
  | zero =>
    cases hrun
    exact h
  | succ n ih =>
    obtain ⟨w, hs, hw⟩ := runSteps_succ_next hrun
    have he := stepEffect_of_step hs
    rw [completionsTaken_of_step hs, ← Nat.add_assoc]
    exact ih (playedTo_step h hinv hu hs) (inv_step hinv he) (undisturbed_step he hu) hw

/-- The rows of R42's table for `SIZE` and `CURSOR` (O46): with no `LOAD` either, an undisturbed step keeps `SIZE`, and
only a completion writes `CURSOR`. -/
theorem noLoad_keeps {s t : State} (hu : Undisturbed s) (hload : NoCommand isLoadCmd s.host) (hs : step s = .next t) :
    t.size = s.size ∧ (stepKind s ≠ .completion → t.cursor = s.cursor) := by
  obtain ⟨hsize, hcursor, -⟩ := onlyNamedStepsWriteEachField s t hs
  have hreset := stepKind_ne_reset hu.2
  have hstart : stepKind s ≠ .command .start := fun hk => nomatch noCommand_stepKind hu.1 hk
  have hnoload := stepKind_of_noLoad hload
  constructor
  · by_contra hne
    rcases hsize (.inr hne) with hk | ⟨⟨n, hk⟩, -⟩
    · exact hreset hk
    · exact hnoload n hk
  · intro hcompletion
    by_contra hne
    rcases hcursor hne with hk | hk | hk | ⟨n, hk⟩
    · exact hreset hk
    · exact hcompletion hk
    · exact hstart hk
    · exact hnoload n hk

/-- A state of an undisturbed run of a playback with no `LOAD` to come: once playback is over, `CURSOR` is `SIZE`. -/
structure PlaybackRun (s : State) : Prop where
  inv : Inv s
  undisturbed : Undisturbed s
  noLoad : NoCommand isLoadCmd s.host
  ended : s.running = false → s.cursor = s.size

/-- The last completion, which alone ends playback, leaves `CURSOR` equal to `SIZE` (R99), and nothing moves it then. -/
theorem playbackRun_ended {s t : State} (h : PlaybackRun s) (hs : step s = .next t) (hidle : t.running = false) :
    t.cursor = t.size := by
  obtain ⟨hinv, hu, hload, hended⟩ := h
  obtain ⟨hrunning, hcursor, -⟩ := transitionTable s t hinv hs
  obtain ⟨hsize, hkept⟩ := noLoad_keeps hu hload hs
  by_cases hk : stepKind s = .completion
  · rw [hk] at hrunning hcursor
    rw [hsize]
    cases hr : s.running with
    | true =>
      obtain ⟨-, hlt⟩ := hinv.running_cursor hr
      have hlast : ¬ s.cursor.toNat + 1 < s.size.toNat := by simpa [runningAfter, hr, hidle] using hrunning
      refine BitVec.eq_of_toNat_eq (hcursor.trans ?_)
      rw [cursorAfter, if_pos hr]
      omega
    | false =>
      have hsame : t.cursor = s.cursor := BitVec.eq_of_toNat_eq (hcursor.trans (if_neg (by simp [hr])))
      exact hsame.trans (hended hr)
  · obtain ⟨hrun, -⟩ := transition_undisturbed hu hk
    rw [hkept hk, hsize]
    exact hended (hrun.symm.trans (hrunning.symm.trans hidle))

theorem playbackRun_step {s t : State} (h : PlaybackRun s) (he : StepEffect s t) : PlaybackRun t where
  inv := inv_step h.inv he
  undisturbed := undisturbed_step he h.undisturbed
  noLoad := noCommand_step he h.noLoad
  ended := playbackRun_ended h (step_of_stepEffect he)

/-- Settles O52: by `runSteps_playedTo` playback stands at `SIZE` completions, and there it is over with its whole
history; where the cursor is then is kept by every step (`playbackRun_step`). -/
theorem restartReplaysFromZero : Obligations.RestartReplaysFromZero := by
  intro n s t u hinv hidle hsize hstart hu hrun hcount
  have he := commandEffect_of_exec hstart
  have hinvt := inv_command hinv he
  have hbegun := playedTo_of_start he hidle hsize
  have hplayed := runSteps_playedTo hbegun hinvt hu hrun
  rw [hcount, Nat.zero_add] at hplayed
  have hended : u.running = false := hplayed.running.trans (decide_eq_false (Nat.lt_irrefl _))
  refine ⟨?_, hended, fun hload => ?_⟩
  · rw [hplayed.log, playbackLog_all hsize, List.append_assoc]
  · have hrunning : t.running = true := hbegun.running.trans (decide_eq_true hsize)
    have hplaying : PlaybackRun t := ⟨hinvt, hu, hload, fun hidle => by simp [hrunning] at hidle⟩
    exact (run_induction (fun _ _ => playbackRun_step) n t u hplaying hrun).ended hended

end Sys2Proof.Machine

namespace Sys2Proof.Machine

/-! The timer register programmer (42_timer_programmer.md R80 to R85, R93, R94). -/

/-- R80's three cases in one: the frequency is cut at 20000 from above and then at 100 from below. -/
theorem clampF_eq_max_min (f : BitVec 16) : clampF f = max 100 (min f.toNat 20000) := by
  unfold clampF Config.fMin Config.fMax
  split
  · omega
  · split <;> omega

/-- R81 without its subtraction, which never falls below zero (`reload_quotient_bounds`). -/
theorem reload_toNat_add_one (f : BitVec 16) : (reload f).toNat + 1 = 1000000 / (2 * clampF f) := by
  obtain ⟨hlow, -⟩ := reload_quotient_bounds f
  rw [reload_toNat, Nat.sub_add_cancel (by omega)]

/-- A larger clamped frequency divides R81's constant into no larger a quotient. -/
theorem reload_antitone {f g : BitVec 16} (h : clampF f ≤ clampF g) : (reload g).toNat ≤ (reload f).toNat := by
  obtain ⟨hpos, -⟩ := clampF_bounds f
  refine Nat.le_of_succ_le_succ ?_
  calc (reload g).toNat + 1
      = 1000000 / (2 * clampF g) := reload_toNat_add_one g
    _ ≤ 1000000 / (2 * clampF f) := Nat.div_le_div_left (by omega) (by omega)
    _ = (reload f).toNat + 1 := (reload_toNat_add_one f).symm

/-- Settles O20: `reload f + 1` is the quotient (`reload_toNat_add_one`), so the two inequalities are those of division
with remainder. -/
theorem reloadIsTruncatedQuotientInRange : Obligations.ReloadIsTruncatedQuotientInRange := by
  refine ⟨fun f => ?_, fun f g => reload_antitone⟩
  obtain ⟨hcLow, hcHigh⟩ := clampF_bounds f
  obtain ⟨hrLow, hrHigh⟩ := reload_range f
  refine ⟨by omega, by omega, hrLow, hrHigh, ?_, ?_⟩
  · rw [reload_toNat_add_one]
    exact Nat.div_mul_le_self _ _
  · rw [show (reload f).toNat + 2 = 1000000 / (2 * clampF f) + 1 from congrArg (· + 1) (reload_toNat_add_one f),
      mul_comm]
    exact Nat.lt_mul_div_succ _ (by omega)

/-- Settles O19, from the clamp as a maximum of a minimum; the corner cases are evaluated. -/
theorem clampIsToTheBounds : Obligations.ClampIsToTheBounds := by
  refine ⟨fun f => ?_, by decide⟩
  rw [clampF_eq_max_min]
  omega

/-- Settles O21: from 1 on the subtraction does not wrap. -/
theorem repetitionCountIsPulsesLessOne : Obligations.RepetitionCountIsPulsesLessOne :=
  ⟨fun _ h => BitVec.toNat_sub_of_le (BitVec.le_def.mpr h), rfl⟩

/-- Settles O22: the fields written are those of Laws/State.lean, and the frame is the record update itself. -/
theorem timerPortWrites : Obligations.TimerPortWrites := fun b s =>
  ⟨⟨timerProgram_tarr b s, timerProgram_trcr b s, timerProgram_tie b s, timerProgram_tlog b s, rfl⟩,
    timerDisarm_tie s, timerDisarm_tpend s, timerDisarm_tlog s, rfl⟩

end Sys2Proof.Machine

namespace Sys2Proof.Machine

/-! The completion reaction (43_completion.md R96 to R102). -/

/-- Settles O26: the simulated completion is a bridge step whose forced request the acknowledgement drops again. -/
theorem idleCompletionChangesNothing : Obligations.IdleCompletionChangesNothing := fun s hidle =>
  ⟨complete_idle hidle, bridgeStep_idle hidle, bridgeStep_idle (s := { s with tpend := true }) hidle⟩

/-- At the last burst the cursor advances to `SIZE` exactly: the invariant keeps it below `SIZE` before (R39, R99). -/
theorem cursor_succ_eq_size {s : State} (h : Inv s) (hr : s.running = true)
    (hlast : s.size.toNat ≤ s.cursor.toNat + 1) : BitVec.ofNat 4 (s.cursor.toNat + 1) = s.size := by
  obtain ⟨-, hlt⟩ := h.running_cursor hr
  exact BitVec.eq_of_toNat_eq ((cursor_succ_toNat h hr).trans (Nat.le_antisymm hlt hlast))

/-- Settles O25: `complete_last`, with the cursor it stores by `cursor_succ_eq_size`. -/
theorem lastCompletionStops : Obligations.LastCompletionStops := by
  intro s h hr hlast
  rw [complete_last hr hlast, cursor_succ_eq_size h hr hlast]
  rfl

/-- Settles O24: `complete_next`, where the invariant makes the next index an entry of `BUF` and the sum exact. -/
theorem completionProgramsNextBurst : Obligations.CompletionProgramsNextBurst := by
  intro s h hr hnext
  have hi : s.cursor.toNat + 1 < Config.max := hnext.trans_le h.size_le
  rw [complete_next hr hnext, burstAt_eq s _ hi]
  exact ⟨cursor_succ_toNat h hr, s.buf[s.cursor.toNat + 1], Vector.getElem?_eq_getElem hi, rfl⟩

/-- Settles O51: `START` puts playback at no completions, and by `runSteps_playedTo` the run counts on from there. -/
theorem playbackInStoredOrder : Obligations.PlaybackInStoredOrder := by
  intro n s t u hinv hidle hsize hstart hu hrun
  have he := commandEffect_of_exec hstart
  have hplayed := runSteps_playedTo (playedTo_of_start he hidle hsize) (inv_command hinv he) hu hrun
  simpa only [Nat.zero_add] using hplayed.log

/-- What holds from a running state `s` without a pending completion on, as long as none is raised and no `STOP` and no
reset comes: playback is on, and stands where it stood. -/
structure Stalled (s t : State) : Prop where
  running : t.running = true
  tpend : t.tpend = false
  cursor : t.cursor = s.cursor
  buf : t.buf = s.buf
  tlog : t.tlog = s.tlog

/-- While Running, `LOAD` is refused and `START` ignored; only `STOP` could move a stalled playback. -/
theorem commandEffect_stalled {r s t : State} {i : Instr} (he : CommandEffect s i t) (hi : i ≠ .stop)
    (h : Stalled r s) : Stalled r t := by
  cases he with
  | wrstg | wrstgIllegal | loadRefused | startIgnored | qrun | qcap => exact { h with }
  | loadDone n hidle | startBegins hsize hidle => simp [h.running] at hidle
  | stop => exact absurd rfl hi

/-- A state `t` of a run from a state `s` as in R102: what the premises of R102 bar is still barred. -/
structure StalledRun (s t : State) : Prop where
  notStopped : NotStopped t
  notTimer : Turn.timer ∉ t.turns
  notSimulated : Turn.simulated ∉ t.turns
  stalled : Stalled s t

/-- No step of such a run moves playback: completions are barred by the turns to come or want a pending request. -/
theorem stepEffect_stalled {r s t : State} (he : StepEffect s t) (h : StalledRun r s) : Stalled r t := by
  obtain ⟨⟨hnostop, hnoreset⟩, hnotimer, hnosim, hs⟩ := h
  cases he with
  | timer ht => exact absurd ht (nextTurn_ne (by decide) hnotimer)
  | simulated ht => exact absurd ht (nextTurn_ne (by decide) hnosim)
  | reset ht => exact absurd ht (nextTurn_ne (by decide) hnoreset)
  | completion src ht hsrc hpend => simp [hs.tpend] at hpend
  | otherEntry | hostIdle | read | ignoredWrite | illegalWord => exact { hs with }
  | readFault | writeFault => rw [raiseFault_frame]; exact { hs with }
  | command off n v rest i _ ht hh hr hd hc =>
    have hi : i ≠ .stop := by
      rintro rfl
      cases noCommand_head hnostop hh hr hd
    exact commandEffect_stalled hc hi { hs with }

theorem stalledRun_step {r s t : State} (h : StalledRun r s) (he : StepEffect s t) : StalledRun r t where
  notStopped := h.notStopped.imp (noCommand_step he) (notMem_turns_step he)
  notTimer := notMem_turns_step he h.notTimer
  notSimulated := notMem_turns_step he h.notSimulated
  stalled := stepEffect_stalled he h

/-- Settles O55: the first state of the run is stalled, and every step keeps it so (`stalledRun_step`). -/
theorem missedCompletionStalls : Obligations.MissedCompletionStalls := by
  intro n s t hr hstop ⟨hpend, htimer, hsim⟩ hrun
  have hbegun : StalledRun s s := ⟨hstop, htimer, hsim, hr, hpend, rfl, rfl, rfl⟩
  obtain ⟨hrunning, -, hcursor, hbuf, hlog⟩ := (run_induction (fun _ _ => stalledRun_step) n s t hbegun hrun).stalled
  exact ⟨hrunning, hcursor, hbuf, hlog⟩

end Sys2Proof.Machine

namespace Sys2Proof.Machine

/-! Steps that go on, and the turns of the timer and the bridge (60_exceptions.md R104, R108 to R111). -/

theorem hostRead_completes (off : Fin 16) (n : Nat) (rest : List HostAccess) (s : State) :
    ∃ t, hostRead off n rest s = .next t := by
  unfold hostRead
  split <;> exact ⟨_, rfl⟩

theorem execWord_completes (w : Word) (s : State) : ∃ t, execWord w s = .next t := by
  cases hd : decode w with
  | ok i => rw [execWord_of_ok hd]; exact exec_completes i s
  | error e => exact ⟨_, execWord_of_error hd s⟩

theorem hostWrite_completes (off : Fin 16) (n : Nat) (v : Word) (rest : List HostAccess) (s : State) :
    ∃ t, hostWrite off n v rest s = .next t := by
  unfold hostWrite
  split
  case h_1 r hr =>
    cases r with
    | cmd => exact execWord_completes v _
    | status | result | timer => exact ⟨_, rfl⟩
  case h_2 => exact ⟨_, rfl⟩

/-- The host's turn completes, whatever its next access is (R104). -/
theorem hostTurn_completes (s : State) : ∃ t, hostTurn s = .next t := by
  unfold hostTurn
  split
  · exact ⟨_, rfl⟩
  · exact hostRead_completes _ _ _ s
  · exact hostWrite_completes _ _ _ _ s

/-- Settles O41: the host's turn completes (`hostTurn_completes`), and the other agents' turns are functions. -/
theorem everyStepGoesOn : Obligations.EveryStepGoesOn := by
  intro s
  rw [step_eq_takeTurn]
  cases nextTurn s with
  | host => exact hostTurn_completes _
  | timer | irq | simulated | reset => exact ⟨_, rfl⟩

/-- A step with turns to come is the first of them, taken when it is off the list. -/
theorem step_of_turns {s : State} {x : Turn} {ts : List Turn} (h : s.turns = x :: ts) :
    step s = takeTurn x { s with turns := ts } := by
  simp only [step, h]

/-- Settles O27: the turn is `timerTurn`, whose two branches are the first two clauses. -/
theorem timerRaisesOnlyWhileArmed : Obligations.TimerRaisesOnlyWhileArmed := by
  intro s ts hts
  have harmed (htie : s.tie = true) : timerTurn { s with turns := ts } = { s with turns := ts, tpend := true } :=
    if_pos htie
  refine ⟨_, step_of_turns hts, harmed, fun htie => if_neg (by simp [htie]), fun htie hpend => ?_⟩
  rw [harmed htie, ← hpend]

/-- No request is pending after a bridge step: what `Complete()` does can only drop one (R90, R94). -/
theorem bridgeStep_tpend (s : State) : (bridgeStep s).tpend = false := by
  unfold bridgeStep
  rcases complete_cases { s with tpend := false } with ⟨-, he⟩ | ⟨-, -, he⟩ | ⟨-, -, he⟩ <;>
    exact congrArg State.tpend he

/-- Settles O28: the entry is the bridge step, which leaves no request by `bridgeStep_tpend`. -/
theorem bridgeAcknowledgesAndCompletes : Obligations.BridgeAcknowledgesAndCompletes := by
  intro s ts hts hpend
  have hentry : irqEntry Config.ownSrc { s with turns := ts } = bridgeStep { s with turns := ts } :=
    irqEntry_completion rfl hpend
  exact ⟨_, (step_of_turns hts).trans (congrArg Host.Outcome.next hentry), rfl, bridgeStep_tpend _⟩

/-- Settles O29, from `irqEntry_other`. -/
theorem foreignAndSpuriousEntriesChangeNothing : Obligations.ForeignAndSpuriousEntriesChangeNothing :=
  fun s _ ts hts hother => (step_of_turns hts).trans (congrArg _ (irqEntry_other (s := { s with turns := ts }) hother))

end Sys2Proof.Machine

namespace Sys2Proof.Machine

/-! Commands beside the timer and the bridge (60_exceptions.md R112). While Running, a command other than `STOP` writes
no field but `STG`, `ILL` and `RESULT`, and the steps of the timer and the bridge do not depend on these. -/

/-- The state with other values in the fields that a command writes while Running. -/
def State.answering (s : State) (g : Vector Burst Config.max) (b : Bool) (v : Word) : State :=
  { s with stg := g, ill := b, result := v }

/-- The step neither reads nor writes `STG`, `ILL` and `RESULT`. -/
def AnswerBlind (f : State → State) : Prop := ∀ s g b v, f (s.answering g b v) = (f s).answering g b v

theorem answerBlind_timerTurn : AnswerBlind timerTurn := by
  intro s g b v
  rw [timerTurn_eq, timerTurn_eq]
  rfl

theorem answerBlind_complete : AnswerBlind complete := by
  intro s g b v
  rcases complete_cases s with ⟨hr, he⟩ | ⟨hr, hc, he⟩ | ⟨hr, hc, he⟩
  · rw [he, complete_idle (s := s.answering g b v) hr]
  · rw [he, complete_last (s := s.answering g b v) hr hc]
    rfl
  · rw [he, complete_next (s := s.answering g b v) hr hc]
    rfl

theorem answerBlind_bridgeStep : AnswerBlind bridgeStep := fun s => answerBlind_complete { s with tpend := false }

/-- The command answers alike in a running and an Idle block. -/
def AnswersInEitherMode (i : Instr) : Prop := i = .qcap ∨ ∃ idx p f, i = .wrstg idx p f

/-- While Running a command other than `STOP` writes `STG`, `ILL` and `RESULT` alone, and writes the same to every other
state with these three fields in which the block runs, `WRSTG` and `QCAP` also to one in which it is Idle. -/
theorem commandEffect_answers {s t : State} {i : Instr} (he : CommandEffect s i t) (hr : s.running = true)
    (hi : i ≠ .stop) :
    ∃ g b v, t = s.answering g b v ∧
      ∀ u : State, u.running = true ∨ AnswersInEitherMode i →
        CommandEffect (u.answering s.stg s.ill s.result) i (u.answering g b v) := by
  cases he with
  | wrstg idx p f h => exact ⟨_, _, _, rfl, fun u _ => .wrstg idx p f h⟩
  | wrstgIllegal idx p f h => exact ⟨_, _, _, rfl, fun u _ => .wrstgIllegal idx p f h⟩
  | loadRefused n h =>
    exact ⟨_, _, _, rfl, fun u hu => .loadRefused n (.inl (hu.resolve_right (by simp [AnswersInEitherMode])))⟩
  | startIgnored h =>
    exact ⟨_, _, _, rfl, fun u hu => .startIgnored (.inr (hu.resolve_right (by simp [AnswersInEitherMode])))⟩
  | qrun =>
    refine ⟨_, _, _, rfl, fun u hu => ?_⟩
    have hrun : u.running = s.running := (hu.resolve_right (by simp [AnswersInEitherMode])).trans hr.symm
    rw [← hrun]
    exact .qrun
  | qcap => exact ⟨_, _, _, rfl, fun u _ => .qcap⟩
  | loadDone n hidle | startBegins hsize hidle => simp [hr] at hidle
  | stop => exact absurd rfl hi

/-- A step that is blind to the fields a command writes commutes with it, if it leaves the block running or the command
does not ask. -/
theorem exec_commutes {f : State → State} {s t : State} {i : Instr} (hf : AnswerBlind f) (hr : s.running = true)
    (hi : i ≠ .stop) (hrun : (f s).running = true ∨ AnswersInEitherMode i) (h : exec i s = .next t) :
    exec i (f s) = .next (f t) := by
  obtain ⟨g, b, v, rfl, hsame⟩ := commandEffect_answers (commandEffect_of_exec h) hr hi
  have hkept : f s = (f s).answering s.stg s.ill s.result := hf s s.stg s.ill s.result
  rw [hkept, hf]
  exact exec_of_commandEffect (hsame (f s) hrun)

/-- Settles O57: an armed source means a running block (R40), and the timer's turn leaves it so. -/
theorem timerStepCommutesWithCommands : Obligations.TimerStepCommutesWithCommands := by
  intro i s t hinv htie hi h
  have hr : s.running = true := hinv.tie_eq_running ▸ htie
  exact exec_commutes answerBlind_timerTurn hr hi (.inl (by rw [timerTurn_eq]; exact hr)) h

/-- A completion that is not the final one leaves the block running (R97). -/
theorem bridgeStep_running {s : State} (hr : s.running = true) (hnext : s.cursor.toNat + 1 < s.size.toNat) :
    (bridgeStep s).running = true := by
  rw [bridgeStep, complete_next (s := { s with tpend := false }) hr hnext]
  exact hr

/-- Settles O58, from `exec_commutes`: the completion leaves the block running, or the command is `WRSTG` or `QCAP`. -/
theorem bridgeStepCommutesWithCommands : Obligations.BridgeStepCommutesWithCommands :=
  fun _ _ _ hr hi hc h => exec_commutes answerBlind_bridgeStep hr hi (hc.imp_left (bridgeStep_running hr)) h

/-- Settles O59: after `STOP` the entry is spurious; before it, it is the completion of R77's table. -/
theorem stopAndBridgeInEitherOrder : Obligations.StopAndBridgeInEitherOrder := by
  intro s t hinv hr hpend hnext h
  obtain ⟨-, hcursor, hlog⟩ := bridgeStep_transition hinv
  rw [irqEntry_completion rfl hpend]
  refine ⟨?_, _, exec_of_commandEffect .stop, rfl, ?_, ?_⟩
  · cases commandEffect_of_exec h with
    | stop => exact ⟨irqEntry_other (.inr rfl), rfl, rfl⟩
  · simpa [cursorAfter, hr] using hcursor
  · simp [hlog, logAppended, hr, hnext]

end Sys2Proof.Machine

namespace Sys2Proof.Machine

/-! Bounded liveness of playback (60_exceptions.md R119, R120; log 21). -/

/-- The bursts still to be completed, counted as in O54. -/
def burstsLeft (s : State) : Nat := s.size.toNat - s.cursor.toNat

/-- How many completions a step of the kind takes. -/
def StepKind.completions (k : StepKind) : Nat := if k = .completion then 1 else 0

/-- While Running only a completion moves `CURSOR`, reset apart (R77). -/
theorem cursorAfter_running {k : StepKind} {s : State} (hr : s.running = true) (hk : k ≠ .reset) :
    cursorAfter k s = s.cursor.toNat + k.completions := by
  cases k with
  | command i =>
    cases i with
    | start | load => exact if_neg (by simp [hr])
    | wrstg | stop | qrun | qcap => rfl
  | completion => exact if_pos hr
  | reset => exact absurd rfl hk
  | illegalWord | hostOther | timer | otherEntry => rfl

/-- A step of a running block that is no reset completes as many bursts as its kind says. -/
theorem burstsLeft_step {s t : State} (hinv : Inv s) (hr : s.running = true) (hreset : Turn.reset ∉ s.turns)
    (hs : step s = .next t) : burstsLeft s = (stepKind s).completions + burstsLeft t := by
  obtain ⟨-, hcursor, -⟩ := transitionTable s t hinv hs
  obtain ⟨-, hsize⟩ := bufferFixedWhileRunning s t hs hr (nextTurn_ne (by decide) hreset)
  rw [cursorAfter_running hr (stepKind_ne_reset hreset)] at hcursor
  obtain ⟨-, hlt⟩ := hinv.running_cursor hr
  have hone : (stepKind s).completions ≤ 1 := by unfold StepKind.completions; split <;> decide
  rw [burstsLeft, burstsLeft, hcursor, hsize]
  omega

/-- What the host's turn can be. -/
theorem stepKind_of_hostTurn {s : State} (ht : nextTurn s = .host) :
    stepKind s = .hostOther ∨ stepKind s = .illegalWord ∨ ∃ i, stepKind s = .command i := by
  rw [stepKind_host ht]
  unfold hostKind
  split
  case h_1 =>
    split
    case h_1 =>
      split
      case h_1 i hd => exact .inr (.inr ⟨i, rfl⟩)
      case h_2 => exact .inr (.inl rfl)
    case h_2 => exact .inl rfl
  case h_2 => exact .inl rfl

/-- The host's turn takes no completion, and with no `STOP` to come it keeps a pending request. -/
theorem hostTurn_keeps_tpend {s t : State} (ht : nextTurn s = .host) (hstop : NoCommand isStopCmd s.host)
    (hs : step s = .next t) : stepKind s ≠ .completion ∧ t.tpend = s.tpend := by
  obtain ⟨-, -, -, -, -, -, -, -, htpend⟩ := onlyNamedStepsWriteEachField s t hs
  have hnostop : stepKind s ≠ .command .stop := fun hk => nomatch noCommand_stepKind hstop hk
  rcases stepKind_of_hostTurn ht with hk | hk | ⟨i, hk⟩
  all_goals
    rw [hk] at htpend hnostop ⊢
    refine ⟨nofun, of_not_not fun hne => ?_⟩
    simpa [hnostop] using htpend hne

theorem turns_eq_nextTurn_cons {s : State} (h : s.turns ≠ []) : s.turns = nextTurn s :: s.turns.tail := by
  unfold nextTurn
  split
  case h_1 hnil => exact absurd hnil h
  case h_2 hcons => rw [hcons, List.tail_cons]

/-- A turn of a running block takes from `completionsServed` the completion it is, if it is one. -/
theorem completionsServed_step {s t : State} (hinv : Inv s) (hr : s.running = true) (hn : NotStopped s)
    (hturns : s.turns ≠ []) (hs : step s = .next t) :
    completionsServed s.tpend s.turns = (stepKind s).completions + completionsServed t.tpend t.turns := by
  obtain ⟨hstop, hreset⟩ := hn
  have he := stepEffect_of_step hs
  rw [(stepEffect_environment he).1, turns_eq_nextTurn_cons hturns, List.tail_cons]
  cases he with
  | timer ht =>
    have hraised : (timerTurn (afterTurn s)).tpend = true := by simp [timerTurn_eq, hinv.tie_eq_running, hr]
    rw [hraised, stepKind_timer ht, ht]
    exact (Nat.zero_add _).symm
  | completion src ht hsrc hp =>
    rw [bridgeStep_tpend, stepKind_completion ht hsrc hp, ht]
    exact if_pos ⟨hsrc, hp⟩
  | otherEntry src ht hsrc =>
    rw [stepKind_otherEntry ht hsrc, ht]
    exact (if_neg (by rintro ⟨h1, h2⟩; simp [h1, h2] at hsrc)).trans (Nat.zero_add _).symm
  | simulated ht =>
    rw [bridgeStep_tpend, stepKind_simulated ht, ht]
    rfl
  | reset ht => exact absurd ht (nextTurn_ne (by decide) hreset)
  | hostIdle | read | readFault | ignoredWrite | writeFault | illegalWord | command =>
    have ht : nextTurn s = .host := by assumption
    obtain ⟨hk, hp⟩ := hostTurn_keeps_tpend ht hstop hs
    rw [hp, ht, StepKind.completions, if_neg hk]
    exact (Nat.zero_add _).symm

/-- A step that leaves the block running leaves the premise of R120 true of the bursts still left. -/
theorem timerLive_step {s t : State} (hinv : Inv s) (hr : s.running = true) (hn : NotStopped s)
    (hturns : s.turns ≠ []) (hs : step s = .next t) (hlive : TimerLive (burstsLeft s) s) : TimerLive (burstsLeft t) t := by
  rw [TimerLive, burstsLeft_step hinv hr hn.2 hs, completionsServed_step hinv hr hn hturns hs] at hlive
  exact Nat.le_of_add_le_add_left hlive

/-- A running block has a burst left, so a live timer has a turn to come. -/
theorem turns_ne_nil_of_timerLive {s : State} (hinv : Inv s) (hr : s.running = true)
    (hlive : TimerLive (burstsLeft s) s) : s.turns ≠ [] := by
  intro hnil
  obtain ⟨-, hlt⟩ := hinv.running_cursor hr
  rw [TimerLive, hnil] at hlive
  exact absurd hlive (Nat.not_le.mpr (Nat.sub_pos_of_lt hlt))

/-- Settles O54, by induction on the turns to come: each is taken, and if the block still runs after it, the premise
holds of the rest (`timerLive_step`). -/
theorem playbackEndsIfTimerLive : Obligations.PlaybackEndsIfTimerLive := by
  intro s hinv hr hn hlive
  induction hlen : s.turns.length generalizing s with
  | zero => exact absurd (List.eq_nil_of_length_eq_zero hlen) (turns_ne_nil_of_timerLive hinv hr hlive)
  | succ m ih =>
    have hturns := turns_ne_nil_of_timerLive hinv hr hlive
    obtain ⟨t, hs⟩ := everyStepGoesOn s
    have he := stepEffect_of_step hs
    cases hrt : t.running with
    | false => exact ⟨1, t, Nat.le_add_left 1 m, runSteps_of_step hs, hrt⟩
    | true =>
      have hnt : NotStopped t := hn.imp (noCommand_step he) (notMem_turns_step he)
      have hrest : t.turns.length = m := by rw [(stepEffect_environment he).1, List.length_tail, hlen]; rfl
      obtain ⟨n, u, hle, hrun, hidle⟩ :=
        ih t (inv_step hinv he) hrt hnt (timerLive_step hinv hr hn hturns hs hlive) hrest
      exact ⟨n + 1, u, Nat.succ_le_succ hle, (runSteps_of_step hs).trans hrun, hidle⟩

end Sys2Proof.Machine

namespace Sys2Proof.Machine

/-! Reset, hazards and timing (70_reset_and_hazards.md R122, R133). -/

/-- Settles O23: `TARR + 1` lies between 25 and 5000 (`reload_range`) and `TRCR + 1` between 1 and 256, so their product
lies between the products of the bounds. -/
theorem burstLengthRange : Obligations.BurstLengthRange := by
  intro b
  obtain ⟨harrLow, harrHigh⟩ := reload_range b.freq
  have hrcr := (repeatCount b.pulses).isLt
  exact ⟨Nat.mul_le_mul (Nat.le_add_left 1 _) (Nat.succ_le_succ harrLow),
    Nat.mul_le_mul hrcr (Nat.succ_le_succ harrHigh)⟩

/-- A block with nothing loaded and no illegal word reported is as it was after `START` (R73, R122). -/
theorem exec_start_unloaded {s : State} (hsize : s.size = 0) (hill : s.ill = false) : exec .start s = .next s :=
  (exec_of_commandEffect (.startIgnored (.inl hsize))).trans (congrArg _ (setIll_self hill))

/-- Settles O43: every field the registers show is 0 at reset, the source is disarmed, and nothing is loaded. -/
theorem afterResetNothingPlays : Obligations.AfterResetNothingPlays :=
  ⟨rfl, rfl, rfl, if_neg Bool.false_ne_true, exec_start_unloaded rfl rfl⟩

end Sys2Proof.Machine

namespace Sys2Proof

/-! Sample words (95_test_vectors.md section 2.1). -/

/-- Settles O5: each legal word is the encoding of its command (`decode_encode`), and the number of each illegal word
lies in its case of R62 (`decode_eq_error_iff`). -/
theorem sampleWordsDecode : Obligations.SampleWordsDecode := by
  have hindex : DecodeError.stagingIndex.AppliesTo 0x1A0103E8 := ⟨by decide, by decide⟩
  have hcount : DecodeError.countReserved.AppliesTo 0x20000100 := ⟨by decide, by decide⟩
  have hopcode : DecodeError.reservedOpcode.AppliesTo 0xFFFFFFFF := .inr (by decide)
  exact ⟨decode_encode (i := .wrstg 0 1 1000) rfl, decode_encode (i := .wrstg 9 255 65535) rfl,
    (decode_eq_error_iff 0x1A0103E8 _).mpr hindex, decode_encode (i := .load 11) rfl,
    (decode_eq_error_iff 0x20000100 _).mpr hcount, decode_encode (i := .start) rfl, decode_encode (i := .stop) rfl,
    decode_encode (i := .qrun) rfl, decode_encode (i := .qcap) rfl, (decode_eq_error_iff 0xFFFFFFFF _).mpr hopcode⟩

end Sys2Proof
